-- ==== Sys2Proof/Word.lean ====
section
/-! DEFINITION. The plain word types of the bus block (spec/00_scope.md R4, spec/20_memory.md R48): a byte, a 16-bit
address, a 16-bit word, a port number and a 64-bit cycle count.
Every value is unsigned (spec/00_scope.md section 5). -/

namespace Sys2Proof

/-- The addressable unit, "one byte of 8 bits" (R4). -/
abbrev Byte := BitVec 8

/-- An address of the memory space, 16 bits (R4). -/
abbrev Addr := BitVec 16

/-- A word of `read_word` and `write_word`, and the contents of the shift register: 16 bits (R4). -/
abbrev Word16 := BitVec 16

/-- A port number, at the width of the `sel` field of a T40 word that carries it (spec/30_encoding.md R71, R73). How many of these
bits a port number has is the parameter `PORT_WIDTH` (spec/00_scope.md R5; log entry 3): the bits above must be zero. -/
abbrev Port := BitVec 16

/-- A value of the engine's cycle counter, 64 bits (R4, R166). -/
abbrev Count := BitVec 64

end Sys2Proof
end

