-- ==== Sys2Proof/Config.lean ====
section
/-! DEFINITION. The TYPE of the named parameters of spec/00_scope.md R5 (one field each), and the one free value the spec
leaves open, the byte a watchdog read returns (spec/93_implementation_defined.md U2). The values the model runs with are
`Sys2Proof.params` in Machine/Params.lean, beside the constraints R6 puts on them; the machine's operations take the
parameters as an argument, so that a claim can be made for all parameter values that satisfy R6. -/

namespace Sys2Proof

/-- The two fields of the input latch (spec/10_state.md R17, R18). -/
inductive LatchField where
  | A
  | B
  deriving DecidableEq, Repr

/-- One bit of the input latch: a field and a bit index 0 to 7 (spec/10_state.md R27 (e)). -/
structure LatchBit where
  field : LatchField
  bit   : BitVec 3
  deriving DecidableEq, Repr

/-- `INPUT_MAP`: where each of the document's six named inputs sits (spec/43_input_latch.md R143). -/
structure InputMap where
  coin    : LatchBit
  p1Left  : LatchBit
  p1Right : LatchBit
  p1Fire  : LatchBit
  start1p : LatchBit
  start2p : LatchBit
  deriving DecidableEq, Repr

/-- The eighteen named parameters of spec/00_scope.md R5, under the spec's own names. They are configuration, constant for the
life of the block, and never state (spec/10_state.md R25 (a)). -/
structure Params where
  /-- `SHIFT_ANCHOR`: the right-shift count of the shift read at offset 0, 8 or 10 (D1; UNVERIFIED 8, log entry 13). -/
  shiftAnchor     : Nat
  /-- `PORT_WIDTH`: the width of a port number in bits (D3; PRESUMED 8, log entry 3). -/
  portWidth       : Nat
  /-- `PORT_IN_A` (read side). -/
  portInA         : Port
  /-- `PORT_IN_B` (read side). -/
  portInB         : Port
  /-- `PORT_SHIFT_READ` (read side). -/
  portShiftRead   : Port
  /-- `PORT_WDG_R` (read side). -/
  portWdgR        : Port
  /-- `PORT_SHIFT_OFFSET` (write side). -/
  portShiftOffset : Port
  /-- `PORT_SHIFT_DATA` (write side). -/
  portShiftData   : Port
  /-- `PORT_WDG_W` (write side). -/
  portWdgW        : Port
  /-- `STATUS_A`: the fixed status-bit pattern of input port A (D4). -/
  statusA         : Byte
  /-- `STATUS_B`: the fixed status-bit pattern of input port B (D4). -/
  statusB         : Byte
  /-- `COIN_MASK`: the coin-input bit of latch field A (D5). -/
  coinMask        : Byte
  /-- `INPUT_MAP` (D5). -/
  inputMap        : InputMap
  /-- `VEC_TOP`: the top-of-frame vector (D6). -/
  vecTop          : Byte
  /-- `VEC_MID`: the mid-frame vector (D6). -/
  vecMid          : Byte
  /-- `HALF_FRAME_CYCLES` (D7). -/
  halfFrameCycles : Nat
  /-- `WDG_READ_VALUE`: `none` is the draw of D12, `some v` a fixed byte. -/
  wdgReadValue    : Option Byte
  /-- `QUEUE_DEPTH`: `none` is unbounded (D10), `some n` a finite depth. -/
  queueDepth      : Option Nat
  deriving DecidableEq, Repr

/-- THE FREE VALUE of the model (DESIGN CHOICE, safe, log entry 5): the byte the `n`-th draw yields. R114: a watchdog read
returns "some byte",
and "a model must not assume 0x00, 0xFF or that two reads return the same byte". It has no body: nothing can be proved of
its values. -/
opaque Config.freeByte : Nat → Byte

end Sys2Proof
end

