-- ==== Sys2Proof/Machine/Params.lean ====
section
/-! DEFINITION. The parameter values the model runs with, the defaults of spec/00_scope.md R5 (each the spec's own choice,
log entry 2), and the constraints of R6. -/

namespace Sys2Proof

/-- The default `INPUT_MAP` (spec/43_input_latch.md R143). -/
def defaultInputMap : InputMap where
  coin    := ⟨.A, 0⟩
  start2p := ⟨.A, 1⟩
  start1p := ⟨.A, 2⟩
  p1Fire  := ⟨.A, 4⟩
  p1Left  := ⟨.A, 5⟩
  p1Right := ⟨.A, 6⟩

/-- The "default" column of spec/00_scope.md R5 (PRESUMED, unsafe, log entry 2). -/
def params : Params where
  shiftAnchor     := 8
  portWidth       := 8
  portInA         := 1
  portInB         := 2
  portShiftRead   := 3
  portWdgR        := 6
  portShiftOffset := 2
  portShiftData   := 4
  portWdgW        := 6
  statusA         := 0x08
  statusB         := 0x00
  coinMask        := 0x01
  inputMap        := defaultInputMap
  vecTop          := 0xD7
  vecMid          := 0xCF
  halfFrameCycles := 16666
  wdgReadValue    := none
  queueDepth      := none

/-- The mask that selects bit `i` of a latch field: `1 << i` (spec/43_input_latch.md R140). -/
def bitMask (i : BitVec 3) : Byte := 1#8 <<< i.toNat

/-- Whether a port number has no more than `PORT_WIDTH` bits (spec/00_scope.md R5). -/
def fits (c : Params) (p : Port) : Bool := decide (p.toNat < 2 ^ c.portWidth)

/-- The port numbers of the devices, both directions (spec/00_scope.md R5). -/
def Params.ports (c : Params) : List Port :=
  [c.portInA, c.portInB, c.portShiftRead, c.portWdgR, c.portShiftOffset, c.portShiftData, c.portWdgW]

/-- The constraints of spec/00_scope.md R6 on the named parameters, with the types of R5: each device's number has `PORT_WIDTH`
bits, which is no more than the field of a T40 word that carries it (log entry 3), `SHIFT_ANCHOR` is 8 or 10, a finite
`QUEUE_DEPTH` is at least 2. -/
abbrev Params.Valid (c : Params) : Prop :=
  (c.portWidth ≤ 16 ∧ c.ports.all (fits c) = true) ∧
  [c.portInA, c.portInB, c.portShiftRead, c.portWdgR].Nodup ∧
  [c.portShiftOffset, c.portShiftData, c.portWdgW].Nodup ∧
  c.vecTop ≠ c.vecMid ∧
  (c.inputMap.coin.field = .A ∧ c.coinMask = bitMask c.inputMap.coin.bit) ∧
  (c.shiftAnchor = 8 ∨ c.shiftAnchor = 10) ∧
  1 ≤ c.halfFrameCycles ∧
  (∀ n ∈ c.queueDepth, 2 ≤ n)

end Sys2Proof
end

