-- ==== Sys2Proof/Syntax.lean ====
section
/-! DEFINITION. The syntax of the block's "instructions", which are transactions (spec/30_encoding.md R70): one constructor
of `Instr` per row of spec/opcode_table.json, the thirteen transactions split by device into twenty rows, the five
pseudo-transactions of R83 and the seven address-decode rows of R75; the transaction words of R71; the agents of
spec/20_memory.md R50; and what an agent hands to the block. -/

namespace Sys2Proof

/-- The three byte stores (spec/10_state.md R11 to R13). -/
inductive Store where
  | PROG
  | WRAM
  | VRAM
  deriving DecidableEq, Repr

/-- The document's six named inputs (spec/43_input_latch.md R143). -/
inductive InputName where
  | coin
  | p1Left
  | p1Right
  | p1Fire
  | start1p
  | start2p
  deriving DecidableEq, Repr

/-- The rows of spec/opcode_table.json, operands decoded. -/
inductive Instr where
  /-- `read_byte addr` (R90). -/
  | readByte (addr : Addr)
  /-- `write_byte addr, v` (R91). -/
  | writeByte (addr : Addr) (v : Byte)
  /-- `load_byte addr, v` (R92). -/
  | loadByte (addr : Addr) (v : Byte)
  /-- `read_word addr` (R93). -/
  | readWord (addr : Addr)
  /-- `write_word addr, w` (R94). -/
  | writeWord (addr : Addr) (w : Word16)
  /-- `IN.A`: `port_in PORT_IN_A` (R111). -/
  | inA
  /-- `IN.B`: `port_in PORT_IN_B` (R112). -/
  | inB
  /-- `IN.SHIFT`: `port_in PORT_SHIFT_READ` (R113). -/
  | inShift
  /-- `IN.WDG`: `port_in PORT_WDG_R` (R114). -/
  | inWdg
  /-- `IN.UNK`: `port_in p` for a port number no read-side device claims (R115). -/
  | inUnk (p : Port)
  /-- `OUT.OFFSET`: `port_out PORT_SHIFT_OFFSET, d` (R117). -/
  | outOffset (d : Byte)
  /-- `OUT.DATA`: `port_out PORT_SHIFT_DATA, d` (R118). -/
  | outData (d : Byte)
  /-- `OUT.WDG`: `port_out PORT_WDG_W, d` (R119). -/
  | outWdg (d : Byte)
  /-- `OUT.UNK`: `port_out p, d` for a port number no write-side device claims (R120). -/
  | outUnk (p : Port) (d : Byte)
  /-- `push v` (R130). -/
  | push (v : Byte)
  /-- `pop` (R132). -/
  | pop
  /-- `has_pending` (R131). -/
  | hasPending
  /-- `latch_set f, i` (R140). -/
  | latchSet (f : LatchField) (i : BitVec 3)
  /-- `latch_clear f, i` (R141). -/
  | latchClear (f : LatchField) (i : BitVec 3)
  /-- `tick c` (R156). -/
  | tick (c : Count)
  /-- `load_image base, bytes` (pseudo, R95). -/
  | loadImage (base : Addr) (bytes : List Byte)
  /-- `load_rom blk0, blk1, blk2, blk3` (pseudo, R183). -/
  | loadRom (blk0 blk1 blk2 blk3 : List Byte)
  /-- `frame_scan` (pseudo, R96). -/
  | frameScan
  /-- `press name` (pseudo, R143). -/
  | press (name : InputName)
  /-- `release name` (pseudo, R143). -/
  | release (name : InputName)
  /-- `view.PROG`: the pattern `000x xxxx xxxx xxxx` (R75); `x` are the pattern's free bits, here and below. -/
  | viewProg (x : BitVec 13)
  /-- `view.WRAM`: the pattern `0010 00xx xxxx xxxx` (R75). -/
  | viewWram (x : BitVec 10)
  /-- `view.VRAM.0`: the pattern `0010 01xx xxxx xxxx` (R75). -/
  | viewVram0 (x : BitVec 10)
  /-- `view.VRAM.1`: the pattern `0010 1xxx xxxx xxxx` (R75). -/
  | viewVram1 (x : BitVec 11)
  /-- `view.VRAM.2`: the pattern `0011 xxxx xxxx xxxx` (R75). -/
  | viewVram2 (x : BitVec 12)
  /-- `view.MIRROR.0`: the pattern `01xx xxxx xxxx xxxx` (R75). -/
  | viewMirror0 (x : BitVec 14)
  /-- `view.MIRROR.1`: the pattern `1xxx xxxx xxxx xxxx` (R75). -/
  | viewMirror1 (x : BitVec 15)
  deriving DecidableEq, Repr

/-- A word as the block's interfaces carry it: the 40-bit transaction word T40, the 64-bit `tick` word K64 (both R71), or a
16-bit address given to the address decoder, A16 (R73, R75). -/
inductive TWord where
  | t40 (w : BitVec 40)
  | k64 (w : BitVec 64)
  | a16 (a : Addr)
  deriving DecidableEq, Repr

/-- Why a T40 word is "invalid" (spec/30_encoding.md R74, R80). -/
inductive DecodeError where
  /-- The `op` field holds a value R72 does not list. -/
  | reservedOp (op : BitVec 8)
  /-- A must-be-zero field of the transaction `op` names is not zero. -/
  | mustBeZero (op : BitVec 8)
  deriving DecidableEq, Repr

/-- The four agents that issue transactions (spec/20_memory.md R50). -/
inductive Agent where
  | engine
  | source
  | presentation
  | loader
  deriving DecidableEq, Repr

/-- One thing an agent asks of the block. -/
inductive Request where
  /-- A transaction in its encoded form. -/
  | word (w : TWord)
  /-- A transaction given by name and operands (the textual form of R82): the way a pseudo-transaction, which has no
  encoding of its own, is issued. -/
  | named (i : Instr)
  /-- The engine's poll (spec/60_exceptions.md R160): it issues `has_pending`; if the answer is 1 and the engine's own
  enable condition `enabled` (an input, spec/10_state.md R21 (c)) holds, it issues one `pop` directly after, and then
  `service`, the transactions with which it services the vector (an input, R162). -/
  | poll (enabled : Bool) (service : List Instr)
  deriving DecidableEq, Repr

/-- How far a hold has come. An engine hold is one engine `step()` (spec/20_memory.md R52 (a)), which pops at most once
(R55, spec/60_exceptions.md R160). -/
inductive Stage where
  /-- None of its requests has been taken. -/
  | fresh
  /-- Some have been taken, and no poll has led to a `pop`. -/
  | begun
  /-- A poll has just led to a `pop`, which is the next request. -/
  | popDue
  /-- That `pop` has been taken: no poll of this hold leads to another. -/
  | served
  deriving DecidableEq, Repr

/-- A hold of the block (spec/20_memory.md R52): consecutive requests that no other agent's transaction can enter. The
agent may be left unnamed, as the agent letter of R82 may. -/
structure Hold where
  agent    : Option Agent
  requests : List Request
  stage    : Stage := .fresh
  deriving DecidableEq, Repr

end Sys2Proof
end

