-- ==== Sys2Proof/Machine/State.lean ====
section
/-! DEFINITION. The state. `Block` is the block's own state, EXACTLY the nine items of spec/10_state.md R10, one field each.
`State` puts beside it what the model needs to run the block as one deterministic machine, none of it state of the block
(R25): what the last transaction answered and reported, the counter that indexes the free value, whether the engine has
started, whether an agent other than the loader has, whether the engine's last step still waits for its `tick`, and the holds of
the agents still to come, in the total order of spec/20_memory.md R51. -/

namespace Sys2Proof.Machine

/-- A byte store as plain data: (index, byte) pairs with indexes strictly rising and no byte 0x00. An index that is not
listed reads as 0x00, the reset contents spec/10_state.md R29 gives every byte of every store (log entry 26). -/
abbrev Memory := List Host.Cell

/-- The response of a transaction, at the width of its channel (spec/30_encoding.md R70, R84). -/
inductive Response where
  /-- No response. -/
  | silent
  /-- `has_pending`: 1 bit. -/
  | bit (b : Bool)
  /-- `read_byte`, `port_in`, `pop`: 8 bits. -/
  | byte (v : Byte)
  /-- `read_word`: 16 bits. -/
  | word (w : Word16)
  /-- `frame_scan`: the 7168 bytes of video memory (R83). -/
  | bytes (vs : List Byte)
  /-- The store and index an address resolves to (spec/20_memory.md R40): the answer of an address-decode row. -/
  | place (st : Store) (k : Nat)
  deriving DecidableEq, Repr

/-- A diagnostic (spec/60_exceptions.md R152): direction, port number and, for a write, the byte. -/
inductive Diag where
  | unknownIn (p : Port)
  | unknownOut (p : Port) (d : Byte)
  deriving DecidableEq, Repr

/-- The state of the block (R10). -/
structure Block where
  /-- `PROG`, the program store (R11). -/
  prog    : Memory
  /-- `WRAM`, the working-memory store, also seen through the mirror view (R12, R14). -/
  wram    : Memory
  /-- `VRAM`, the video-memory store (R13). -/
  vram    : Memory
  /-- `SR`, the shift register (R15). -/
  sr      : BitVec 16
  /-- `SO`, the shift offset (R16). -/
  so      : BitVec 3
  /-- `LA`, input latch field A (R17). -/
  la      : BitVec 8
  /-- `LB`, input latch field B (R18). -/
  lb      : BitVec 8
  /-- `IQ`, the interrupt queue, oldest vector first (R19). -/
  iq      : List (BitVec 8)
  /-- `CYC_PREV`, the cycle count of the last observation (R20). -/
  cycPrev : BitVec 64
  deriving DecidableEq, Repr

/-- The block, its outputs and the inputs still to come. -/
structure State extends Block where
  /-- OUTPUT: the response of the last transaction (log entry 7). -/
  response : Response
  /-- OUTPUT: the diagnostic the last transaction emitted, if any (R152, log entry 7). -/
  diag     : Option Diag
  /-- THE MODEL'S OWN: how many free bytes have been drawn (log entry 5). -/
  draws    : Nat
  /-- THE MODEL'S OWN: whether the engine has issued a request, which closes the load path
  (spec/70_reset_and_hazards.md R182, R184; log entry 8). -/
  started  : Bool
  /-- THE MODEL'S OWN: whether an agent other than the loader has issued a request, which ends the loader's part of the boot
  (spec/20_memory.md R50 (d), spec/70_reset_and_hazards.md R182; log entry 31). -/
  booted   : Bool
  /-- THE MODEL'S OWN: whether an engine step has begun whose `tick` is still to come (spec/20_memory.md R56,
  spec/60_exceptions.md R156, R164 (d); log entry 30). -/
  tickDue  : Bool
  /-- INPUT: the holds of the agents, in the order they take the block (spec/20_memory.md R51, R52; log entry 9). -/
  holds    : List Hold
  deriving DecidableEq, Repr

/-- What stops the machine for good. -/
inductive Fault where
  /-- The defect `PopEmpty`: `pop` with `IQ` empty (spec/42_interrupt_queue.md R133, spec/60_exceptions.md R153). Raised by
  `pop` alone. SAFE: the document defines no response and no next state. -/
  | popEmpty
  deriving DecidableEq, Repr

/-- What the model refuses. -/
inductive Refusal where
  /-- An instruction that has no meaning in the model yet. Raised by `exec`'s arms alone. SAFE. -/
  | notModelled (mnemonic : String)
  /-- A word that is not a transaction (spec/30_encoding.md R74, R80, U6). Raised by `step`. SAFE. -/
  | invalidWord (e : DecodeError)
  /-- A named transaction whose operands fail `wellFormed`. Raised by `step`. SAFE. -/
  | illFormed
  /-- A push onto a queue that holds `QUEUE_DEPTH` vectors (spec/42_interrupt_queue.md R135, U3). Raised by `push` and
  `tick`, and only where a finite depth is configured. SAFE. -/
  | queueFull
  /-- A `tick` whose count is below `CYC_PREV` (spec/60_exceptions.md R156, D26, U5). Raised by `tick`. SAFE. -/
  | countDecreased
  /-- A load after the engine has started (spec/70_reset_and_hazards.md R184, U9). Raised by `step`. SAFE. -/
  | loadAfterStart
  deriving DecidableEq, Repr

/-- The block right after its creation (spec/10_state.md R29, R30, spec/70_reset_and_hazards.md R180): every byte 0x00, every
register zero, the queue empty. The model's own fields: no response, no diagnostic, no draw made, no agent started, no `tick`
due, no hold given (DESIGN CHOICE, log entries 5, 7, 8, 9, 30, 31). -/
def State.reset : State where
  prog     := []
  wram     := []
  vram     := []
  sr       := 0
  so       := 0
  la       := 0
  lb       := 0
  iq       := []
  cycPrev  := 0
  response := .silent
  diag     := none
  draws    := 0
  started  := false
  booted   := false
  tickDue  := false
  holds    := []

end Sys2Proof.Machine
end

