-- ==== Sys2Proof/Machine/Flags.lean ====
section
/-! DEFINITION. The block's two flags (spec/10_state.md R23): the status predicate `has_pending` and the coin bit. There is no
other flag and no condition code. -/

namespace Sys2Proof.Machine

/-- `has_pending`: `IQ` is not empty; computed, not stored (R23 (a), spec/42_interrupt_queue.md R131). -/
def pending (s : State) : Bool := !s.iq.isEmpty

/-- The coin strobe `LA & COIN_MASK` (R23 (b)). -/
def coinSet (c : Params) (s : State) : Bool := s.la &&& c.coinMask != 0

/-- Field A after a read of input port A: only the coin bit changes (spec/41_port_io.md R111). -/
def clearCoin (c : Params) (la : Byte) : Byte := la &&& ~~~c.coinMask

end Sys2Proof.Machine
end

