-- ==== Sys2Proof/Machine/PortMap.lean ====
section
/-! DEFINITION. The two port decodes, normative in spec/30_encoding.md R77 (read side) and R78 (write side): which device a
port access reaches. The two directions decode separately (D23;
UNVERIFIED, log entry 22). -/

namespace Sys2Proof

/-- What a `port_in` can reach (R77). -/
inductive ReadDevice where
  | inputA
  | inputB
  | shiftRead
  | watchdog
  | unrecognised
  deriving DecidableEq, Repr

/-- What a `port_out` can reach (R78). -/
inductive WriteDevice where
  | shiftOffset
  | shiftData
  | watchdog
  | unrecognised
  deriving DecidableEq, Repr

/-- The read-side decode: "the first device of this table whose condition holds" (R77). -/
def readDevice (c : Params) (p : Port) : ReadDevice :=
  if p = c.portInA then .inputA
  else if p = c.portInB then .inputB
  else if p = c.portShiftRead then .shiftRead
  else if p = c.portWdgR then .watchdog
  else .unrecognised

/-- The write-side decode: "the first device of this table whose condition holds" (R78). -/
def writeDevice (c : Params) (p : Port) : WriteDevice :=
  if p = c.portShiftOffset then .shiftOffset
  else if p = c.portShiftData then .shiftData
  else if p = c.portWdgW then .watchdog
  else .unrecognised

end Sys2Proof
end

