-- ==== Sys2Proof/WellFormed.lean ====
section
/-! DEFINITION. Which terms of `Instr` stand for a transaction. But for a port number, whose width is
a parameter, every operand's width is in its type, so these checks are left: an unrecognised-port row names a port number of
`PORT_WIDTH` bits (spec/00_scope.md R5) that no device of its direction claims (spec/30_encoding.md R77, R78, R79), and each
block of `load_rom` has 2048 bytes (R83). -/

namespace Sys2Proof

/-- The size of one image block: 2048 bytes (spec/30_encoding.md R83, spec/70_reset_and_hazards.md R183). -/
def blockSize : Nat := 2048

/-- The checks on a transaction's operands under the parameters `c`. -/
def wellFormed (c : Params) : Instr → Bool
  | .readByte _ => true
  | .writeByte _ _ => true
  | .loadByte _ _ => true
  | .readWord _ => true
  | .writeWord _ _ => true
  | .inA => true
  | .inB => true
  | .inShift => true
  | .inWdg => true
  | .inUnk p => fits c p && readDevice c p == .unrecognised
  | .outOffset _ => true
  | .outData _ => true
  | .outWdg _ => true
  | .outUnk p _ => fits c p && writeDevice c p == .unrecognised
  | .push _ => true
  | .pop => true
  | .hasPending => true
  | .latchSet _ _ => true
  | .latchClear _ _ => true
  | .tick _ => true
  | .loadImage _ _ => true
  | .loadRom b0 b1 b2 b3 =>
    b0.length == blockSize && b1.length == blockSize && b2.length == blockSize && b3.length == blockSize
  | .frameScan => true
  | .press _ => true
  | .release _ => true
  | .viewProg _ => true
  | .viewWram _ => true
  | .viewVram0 _ => true
  | .viewVram1 _ => true
  | .viewVram2 _ => true
  | .viewMirror0 _ => true
  | .viewMirror1 _ => true

/-- Well-formed under the parameters the model runs with. -/
abbrev WellFormed (i : Instr) : Prop := wellFormed params i = true

end Sys2Proof
end

