-- ==== Sys2Proof/Decode.lean ====
section
/-! DEFINITION. Decoding the transaction words of spec/30_encoding.md (T40 by R72 to R74, K64 by R71, the address patterns A16
by R75), total and rejecting by name; then the expansion of the pseudo-transactions (R83) and the encoder. T40 and K64 are the
spec's own container (D15; DESIGN CHOICE, log entry 4). -/

namespace Sys2Proof

/-- The three fields of a T40 word (R71): bits 39:32, 31:16 and 15:0. -/
def opOf (w : BitVec 40) : BitVec 8 := w.extractLsb' 32 8

/-- `sel`, bits 31:16 (R71). -/
def selOf (w : BitVec 40) : BitVec 16 := w.extractLsb' 16 16

/-- `data`, bits 15:0 (R71). -/
def dataOf (w : BitVec 40) : BitVec 16 := w.extractLsb' 0 16

/-- The T40 word with the given fields (R71). -/
def t40 (op : BitVec 8) (sel data : BitVec 16) : BitVec 40 := (op ++ sel ++ data).setWidth 40

/-- Bits 7:0 of a field: the byte of `data` (R73, R84). -/
def lowField (x : BitVec 16) : BitVec 8 := x.extractLsb' 0 8

/-- A byte laid into a 16-bit field with its upper bits zero (R73). -/
def inField (b : BitVec 8) : BitVec 16 := b.setWidth 16

/-- The bits of `sel` above a port number: `sel[15:PORT_WIDTH]`, which are `sel[15:8]` by default (R73: "The port field is 8 bits
because `PORT_WIDTH` defaults to 8"). -/
def portMbz (c : Params) : BitVec 16 := BitVec.allOnes 16 <<< c.portWidth

/-- `sel[3:3]`, the latch field: 0 is A and 1 is B (R73). -/
def latchFieldOf (sel : BitVec 16) : LatchField := if sel.getLsbD 3 then .B else .A

/-- `sel[2:0]`, the latch bit index (R73). -/
def latchIndexOf (sel : BitVec 16) : BitVec 3 := sel.extractLsb' 0 3

/-- The `sel` field of a latch transaction (R73). -/
def latchSel (f : LatchField) (i : BitVec 3) : BitVec 16 :=
  ((match f with | .A => 0#1 | .B => 1#1) ++ i).setWidth 16

/-- The address a pattern of R75 spells: its fixed top bits, then its free bits. -/
def patternAddr {m n : Nat} (fixed : BitVec m) (free : BitVec n) : Addr := (fixed ++ free).setWidth 16

/-- The row a `port_in` of port `p` takes (R77): the device rows come before `IN.UNK`. -/
def portInRow (c : Params) (p : Port) : Instr :=
  match readDevice c p with
  | .inputA => .inA
  | .inputB => .inB
  | .shiftRead => .inShift
  | .watchdog => .inWdg
  | .unrecognised => .inUnk p

/-- The row a `port_out` to port `p` takes (R78): the device rows come before `OUT.UNK`. -/
def portOutRow (c : Params) (p : Port) (d : Byte) : Instr :=
  match writeDevice c p with
  | .shiftOffset => .outOffset d
  | .shiftData => .outData d
  | .watchdog => .outWdg d
  | .unrecognised => .outUnk p d

/-- One row of the table of R73: the `op`, which bits of `sel` and of `data` must be zero, and the transaction. -/
structure T40Row where
  op      : BitVec 8
  selMbz  : BitVec 16
  dataMbz : BitVec 16
  build   : BitVec 16 → BitVec 16 → Instr

/-- The table of spec/30_encoding.md R73, its rows in its order (the `op` values are those of R72), for the port width of the
parameters. -/
def t40Rows (c : Params) : List T40Row := [
  ⟨0x00, 0x0000, 0xFFFF, fun sel _ => .readByte sel⟩,
  ⟨0x01, 0x0000, 0xFF00, fun sel data => .writeByte sel (lowField data)⟩,
  ⟨0x02, 0x0000, 0xFF00, fun sel data => .loadByte sel (lowField data)⟩,
  ⟨0x03, 0x0000, 0xFFFF, fun sel _ => .readWord sel⟩,
  ⟨0x04, 0x0000, 0x0000, fun sel data => .writeWord sel data⟩,
  ⟨0x08, portMbz c, 0xFFFF, fun sel _ => portInRow c sel⟩,
  ⟨0x09, portMbz c, 0xFF00, fun sel data => portOutRow c sel (lowField data)⟩,
  ⟨0x10, 0xFFFF, 0xFF00, fun _ data => .push (lowField data)⟩,
  ⟨0x11, 0xFFFF, 0xFFFF, fun _ _ => .pop⟩,
  ⟨0x12, 0xFFFF, 0xFFFF, fun _ _ => .hasPending⟩,
  ⟨0x18, 0xFFF0, 0xFFFF, fun sel _ => .latchSet (latchFieldOf sel) (latchIndexOf sel)⟩,
  ⟨0x19, 0xFFF0, 0xFFFF, fun sel _ => .latchClear (latchFieldOf sel) (latchIndexOf sel)⟩]

/-- Decoding the three fields of a T40 word: the row of its `op`, then the must-be-zero check of R74. -/
def decodeFields (c : Params) (op : BitVec 8) (sel data : BitVec 16) : Except DecodeError Instr :=
  match (t40Rows c).find? (fun r => r.op == op) with
  | none => .error (.reservedOp op)
  | some r =>
    if sel &&& r.selMbz = 0 ∧ data &&& r.dataMbz = 0 then .ok (r.build sel data)
    else .error (.mustBeZero op)

/-- Decoding a T40 word (R71 to R74). -/
def decodeT40 (c : Params) (w : BitVec 40) : Except DecodeError Instr :=
  decodeFields c (opOf w) (selOf w) (dataOf w)

/-- The address pattern a 16-bit address matches (R75). The seven patterns are tried in the table's order; they are
disjoint and cover every address, so the last needs no test of its own. -/
def decodeA16 (a : Addr) : Instr :=
  if a &&& 0xE000 = 0x0000 then .viewProg (a.extractLsb' 0 13)
  else if a &&& 0xFC00 = 0x2000 then .viewWram (a.extractLsb' 0 10)
  else if a &&& 0xFC00 = 0x2400 then .viewVram0 (a.extractLsb' 0 10)
  else if a &&& 0xF800 = 0x2800 then .viewVram1 (a.extractLsb' 0 11)
  else if a &&& 0xF000 = 0x3000 then .viewVram2 (a.extractLsb' 0 12)
  else if a &&& 0xC000 = 0x4000 then .viewMirror0 (a.extractLsb' 0 14)
  else .viewMirror1 (a.extractLsb' 0 15)

/-- Decoding a word of any of the three formats. Every 64-bit value is a well-formed `tick` (R71), and every 16-bit address
selects a view (R41), so only a T40 word can be invalid. -/
def decode (c : Params) : TWord → Except DecodeError Instr
  | .t40 w => decodeT40 c w
  | .k64 w => .ok (.tick w)
  | .a16 a => .ok (decodeA16 a)

/-- `inc16(a) = (a + 1) mod 0x10000` (spec/20_memory.md R44; decision D8; UNVERIFIED, unsafe, log entry 6). -/
def inc16 (a : Addr) : Addr := a + 1

/-- `INPUT_MAP(name)` (spec/43_input_latch.md R143). -/
def InputMap.get (m : InputMap) : InputName → LatchBit
  | .coin => m.coin
  | .p1Left => m.p1Left
  | .p1Right => m.p1Right
  | .p1Fire => m.p1Fire
  | .start1p => m.start1p
  | .start2p => m.start2p

/-- The `load_byte`s of a `load_image` (R83): the cursor starts at the base and advances by `inc16` per byte. -/
def expandImage : Addr → List Byte → List Instr
  | _, [] => []
  | a, v :: vs => .loadByte a v :: expandImage (inc16 a) vs

/-- The addresses of the video view, 0x2400 to 0x3FFF ascending (R83, spec/40_memory_ops.md R96). -/
def videoAddrs : List Addr := (List.range' 0x2400 0x1C00).map (BitVec.ofNat 16)

/-- The transactions a row of the table stands for (R83): the expansion of a pseudo-transaction, and a transaction itself
otherwise. -/
def expand (c : Params) : Instr → List Instr
  | .loadImage base bytes => expandImage base bytes
  | .loadRom b0 b1 b2 b3 =>
    expandImage 0x0000 b0 ++ expandImage 0x0800 b1 ++ expandImage 0x1000 b2 ++ expandImage 0x1800 b3
  | .frameScan => videoAddrs.map .readByte
  | .press n => [.latchSet (c.inputMap.get n).field (c.inputMap.get n).bit]
  | .release n => [.latchClear (c.inputMap.get n).field (c.inputMap.get n).bit]
  | i => [i]

/-- The word of a transaction (R73; R75 for an address pattern), and none for a pseudo-transaction, which has no encoding of
its own (R73: "Five rows have format pseudo, no match"). -/
def encodeOne (c : Params) : Instr → Option TWord
  | .readByte a => some (.t40 (t40 0x00 a 0))
  | .writeByte a v => some (.t40 (t40 0x01 a (inField v)))
  | .loadByte a v => some (.t40 (t40 0x02 a (inField v)))
  | .readWord a => some (.t40 (t40 0x03 a 0))
  | .writeWord a w => some (.t40 (t40 0x04 a w))
  | .inA => some (.t40 (t40 0x08 c.portInA 0))
  | .inB => some (.t40 (t40 0x08 c.portInB 0))
  | .inShift => some (.t40 (t40 0x08 c.portShiftRead 0))
  | .inWdg => some (.t40 (t40 0x08 c.portWdgR 0))
  | .inUnk p => some (.t40 (t40 0x08 p 0))
  | .outOffset d => some (.t40 (t40 0x09 c.portShiftOffset (inField d)))
  | .outData d => some (.t40 (t40 0x09 c.portShiftData (inField d)))
  | .outWdg d => some (.t40 (t40 0x09 c.portWdgW (inField d)))
  | .outUnk p d => some (.t40 (t40 0x09 p (inField d)))
  | .push v => some (.t40 (t40 0x10 0 (inField v)))
  | .pop => some (.t40 (t40 0x11 0 0))
  | .hasPending => some (.t40 (t40 0x12 0 0))
  | .latchSet f i => some (.t40 (t40 0x18 (latchSel f i) 0))
  | .latchClear f i => some (.t40 (t40 0x19 (latchSel f i) 0))
  | .tick n => some (.k64 n)
  | .viewProg x => some (.a16 (patternAddr 0b000#3 x))
  | .viewWram x => some (.a16 (patternAddr 0b001000#6 x))
  | .viewVram0 x => some (.a16 (patternAddr 0b001001#6 x))
  | .viewVram1 x => some (.a16 (patternAddr 0b00101#5 x))
  | .viewVram2 x => some (.a16 (patternAddr 0b0011#4 x))
  | .viewMirror0 x => some (.a16 (patternAddr 0b01#2 x))
  | .viewMirror1 x => some (.a16 (patternAddr 0b1#1 x))
  | .loadImage _ _ => none
  | .loadRom _ _ _ _ => none
  | .frameScan => none
  | .press _ => none
  | .release _ => none

/-- The words of an instruction, in the order they are issued: one word for a transaction, the words of its expansion for a
pseudo-transaction (R83, R95: "Encoding: n `load_byte` words"). -/
def encode (c : Params) (i : Instr) : List TWord := (expand c i).filterMap (encodeOne c)

/-- The word whose bits are `w`, by the width the opcode table gives the row: 16 bits are an address pattern, 64 bits a
`tick`, anything else a T40 word (bits above the given ones are zero). -/
def TWord.ofTable (nbits w : Nat) : TWord :=
  if nbits = 16 then .a16 (BitVec.ofNat 16 w)
  else if nbits = 64 then .k64 (BitVec.ofNat 64 w)
  else .t40 (BitVec.ofNat 40 w)

/-- What the decoder reads, under the parameters the model runs with, from an instruction whose bits are `w` in the
numbering of spec/opcode_table.json; `none` where it refuses the word or the bits do not fit the format. -/
def decodeTableWord (nbits w : Nat) : Option Instr :=
  if 2 ^ nbits ≤ w then none
  else if nbits = 16 ∨ nbits = 64 ∨ nbits ≤ 40 then (decode params (TWord.ofTable nbits w)).toOption
  else none

end Sys2Proof
end

