-- ==== Sys2Proof/Machine/Operands.lean ====
section
/-! DEFINITION. The operand forms: an address as a store and an index (spec/20_memory.md R40, and the bit-level chain of
spec/30_encoding.md R76), the halves of a word (R45, R84), the one operand that is narrowed (the shift offset, R84, R117), and
the half-frame index of a cycle count (spec/60_exceptions.md R155). Every operand is unsigned (R84). -/

namespace Sys2Proof.Machine

/-- The size in bytes of a store (spec/10_state.md R10 to R13). -/
def storeSize : Store → Nat
  | .PROG => 0x2000
  | .WRAM => 0x400
  | .VRAM => 0x1C00

/-- `region(a)`: the store and index a 16-bit address resolves to (spec/20_memory.md R40, the four views). -/
def region (a : Addr) : Store × Nat :=
  let n := a.toNat
  if n ≤ 0x1FFF then (.PROG, n)
  else if n ≤ 0x23FF then (.WRAM, n - 0x2000)
  else if n ≤ 0x3FFF then (.VRAM, n - 0x2400)
  else (.WRAM, (n - 0x4000) % 0x400)

/-- The same decode as a priority chain over address bits (spec/30_encoding.md R76). -/
def regionChain (a : Addr) : Store × Nat :=
  if a.extractLsb' 14 2 ≠ 0b00#2 then (.WRAM, (a.extractLsb' 0 10).toNat)
  else if a.extractLsb' 13 1 = 0#1 then (.PROG, (a.extractLsb' 0 13).toNat)
  else if a.extractLsb' 10 3 = 0b000#3 then (.WRAM, (a.extractLsb' 0 10).toNat)
  else (.VRAM, (a.extractLsb' 0 13).toNat - 0x0400)

/-- The byte at `addr` of a word: bits 7:0 (spec/20_memory.md R45). -/
def lowByte (w : Word16) : Byte := w.extractLsb' 0 8

/-- The byte at `inc16 addr` of a word: bits 15:8 (R45). -/
def highByte (w : Word16) : Byte := w.extractLsb' 8 8

/-- The word of two bytes, `{hi, lo}` (spec/40_memory_ops.md R93). -/
def wordOf (hi lo : Byte) : Word16 := (hi ++ lo).setWidth 16

/-- "Only the low 3 bits of any value written to the offset control port are retained" (spec/41_port_io.md R117). -/
def offsetOf (d : Byte) : BitVec 3 := d.extractLsb' 0 3

/-- The half-frame index `hf(c) = c div HALF_FRAME_CYCLES` (spec/60_exceptions.md R155). -/
def halfFrame (c : Params) (n : Count) : Nat := n.toNat / c.halfFrameCycles

end Sys2Proof.Machine
end

