-- ==== Sys2Proof/Machine/Ops.lean ====
section
/-! DEFINITION. The named operations over the stores, the registers, the queue and the outputs; every meaning is built from
them. The block takes no exception (spec/60_exceptions.md R150, R162): there is no operation for taking one and none for
returning from one; the one defect, `pop` of an empty queue, is a fault of `popVector`. -/

namespace Sys2Proof.Machine

/-! ## Bytes of a store -/

/-- Reading one byte of a store: an unlisted index reads as 0x00 (spec/10_state.md R29). -/
def Memory.read : Memory → Nat → Byte
  | [], _ => 0
  | (k, v) :: m, n => if k = n then v else if n < k then 0 else Memory.read m n

/-- A cell put in front of a list of cells, left out if its byte is what an unlisted index reads as. -/
def Memory.cons (n : Nat) (v : Byte) (m : Memory) : Memory := if v = 0 then m else (n, v) :: m

/-- Writing one byte of a store; the canonical form is kept. -/
def Memory.write : Memory → Nat → Byte → Memory
  | [], n, v => Memory.cons n v []
  | (k, u) :: m, n, v =>
    if k = n then Memory.cons n v m
    else if n < k then Memory.cons n v ((k, u) :: m)
    else (k, u) :: Memory.write m n v

/-- The canonical form from index `lo` on: indexes strictly rising and at least `lo`, no byte 0x00. -/
def Memory.wfFrom (lo : Nat) : Memory → Bool
  | [] => true
  | (k, v) :: m => decide (lo ≤ k) && v != 0 && Memory.wfFrom (k + 1) m

/-- The canonical form: indexes strictly rising, no byte 0x00. -/
def Memory.wf (m : Memory) : Bool := Memory.wfFrom 0 m

/-- Every listed index is below `n`. -/
def Memory.below (n : Nat) (m : Memory) : Bool := m.all fun p => decide (p.1 < n)

/-! ## Updates of the state -/

/-- The contents of a store. -/
def State.store (s : State) : Store → Memory
  | .PROG => s.prog
  | .WRAM => s.wram
  | .VRAM => s.vram

/-- Replacing the contents of a store. -/
def State.setStore (s : State) (st : Store) (m : Memory) : State :=
  match st with
  | .PROG => { s with prog := m }
  | .WRAM => { s with wram := m }
  | .VRAM => { s with vram := m }

/-- `SR <- v`. -/
def State.setSr (s : State) (v : BitVec 16) : State := { s with sr := v }

/-- `SO <- v`. -/
def State.setSo (s : State) (v : BitVec 3) : State := { s with so := v }

/-- A field of the input latch. -/
def State.latch (s : State) : LatchField → Byte
  | .A => s.la
  | .B => s.lb

/-- Writing a field of the input latch. -/
def State.setLatch (s : State) (f : LatchField) (v : Byte) : State :=
  match f with
  | .A => { s with la := v }
  | .B => { s with lb := v }

/-- `IQ <- vs`. -/
def State.setIq (s : State) (vs : List Byte) : State := { s with iq := vs }

/-- `CYC_PREV <- n`. -/
def State.setCycPrev (s : State) (n : Count) : State := { s with cycPrev := n }

/-- The outputs of a transaction: its response, and no diagnostic. -/
def State.answer (s : State) (r : Response) : State := { s with response := r, diag := none }

/-- The outputs of an access to an unrecognised port: its response, and a diagnostic (spec/60_exceptions.md R152). -/
def State.report (s : State) (r : Response) (d : Diag) : State := { s with response := r, diag := some d }

/-- One more free byte has been drawn (log entry 5). -/
def State.countDraw (s : State) : State := { s with draws := s.draws + 1 }

/-! ## Memory transactions (spec/40_memory_ops.md) -/

/-- `MemRead(addr, 1)` (R90). -/
def memRead (s : State) (a : Addr) : Byte := (s.store (region a).1).read (region a).2

/-- `MemLoad(addr, v)`: the unrestricted write (R92). -/
def memLoad (s : State) (a : Addr) (v : Byte) : State :=
  s.setStore (region a).1 ((s.store (region a).1).write (region a).2 v)

/-- `MemWrite(addr, 1, v)`: the run-time write, dropped in the program view (R91). -/
def memWrite (s : State) (a : Addr) (v : Byte) : State :=
  if (region a).1 = .PROG then s else memLoad s a v

/-- `MemRead(addr, 2)` (R93). -/
def memReadWord (s : State) (a : Addr) : Word16 := wordOf (memRead s (inc16 a)) (memRead s a)

/-- `MemWrite(addr, 2, w)`: the low byte at `addr` first, then the high byte at `inc16 addr` (R94; the order is D9, UNVERIFIED,
log entry 15). -/
def memWriteWord (s : State) (a : Addr) (w : Word16) : State :=
  memWrite (memWrite s a (lowByte w)) (inc16 a) (highByte w)

/-- `load_image(base, bytes)` (R95). -/
def loadBytes (s : State) (base : Addr) : List Byte → State
  | [] => s
  | v :: vs => loadBytes (memLoad s base v) (inc16 base) vs

/-- `load_rom`: the four blocks at 0x0000, 0x0800, 0x1000 and 0x1800 (R83, spec/70_reset_and_hazards.md R183). -/
def loadBlocks (s : State) (b0 b1 b2 b3 : List Byte) : State :=
  loadBytes (loadBytes (loadBytes (loadBytes s 0x0000 b0) 0x0800 b1) 0x1000 b2) 0x1800 b3

/-- The bytes of a frame scan: the video view read in ascending order (R96). -/
def frameBytes (s : State) : List Byte := videoAddrs.map (memRead s)

/-! ## The shift register (spec/41_port_io.md) -/

/-- The 8-bit window a shift read returns: `(zext_32(SR) >> (SHIFT_ANCHOR - SO))[7:0]` (R113). -/
def shiftWindow (c : Params) (sr : BitVec 16) (so : BitVec 3) : Byte :=
  (sr.setWidth 32 >>> (c.shiftAnchor - so.toNat)).extractLsb' 0 8

/-- `{d, SR[15:8]}`: the byte loaded goes on top and the old high byte moves down (R118; conflict C2, UNVERIFIED, unsafe,
log entry 14). -/
def shiftLoad (sr : BitVec 16) (d : Byte) : BitVec 16 := wordOf d (highByte sr)

/-! ## Port reads (spec/41_port_io.md) -/

/-- `InA()`: `STATUS_A | LA`, then the coin bit is cleared (R111). -/
def inputA (c : Params) (s : State) : State :=
  (s.setLatch .A (clearCoin c s.la)).answer (.byte (c.statusA ||| s.la))

/-- `InB()` (R112). -/
def inputB (c : Params) (s : State) : State := s.answer (.byte (c.statusB ||| s.lb))

/-- `ShiftRead()` (R113). -/
def shiftRead (c : Params) (s : State) : State := s.answer (.byte (shiftWindow c s.sr s.so))

/-- `WdgRead()`: `WDG_READ_VALUE`, a draw where none is configured (R114, D12, log entry 5). -/
def watchdogRead (c : Params) (s : State) : State :=
  match c.wdgReadValue with
  | some v => s.answer (.byte v)
  | none => s.countDraw.answer (.byte (Config.freeByte s.draws))

/-- `UnkRead(p)` (R115). -/
def unknownRead (s : State) (p : Port) : State := s.report (.byte 0xFF) (.unknownIn p)

/-! ## The interrupt queue (spec/42_interrupt_queue.md) and the interrupt source (spec/60_exceptions.md) -/

/-- `push` of each vector of a list, in order (R130); refused where they do not all fit a finite queue (R135, U3; UNVERIFIED,
safe, log entry 16). -/
def pushVectors (c : Params) (s : State) (vs : List Byte) : Host.Outcome State Fault Refusal :=
  match c.queueDepth with
  | none => .next (s.setIq (s.iq ++ vs))
  | some depth => if s.iq.length + vs.length ≤ depth then .next (s.setIq (s.iq ++ vs)) else .refused .queueFull

/-- `pop()`: the oldest vector is removed and returned; of an empty queue it is the defect `PopEmpty` (R132, R133; log entry 17). -/
def popVector (s : State) : Host.Outcome State Fault Refusal :=
  match s.iq with
  | [] => .fault .popEmpty
  | v :: vs => .next ((s.setIq vs).answer (.byte v))

/-- The vector pushed on entering half-frame `h`: `VEC_TOP` for an even one, `VEC_MID` for an odd one (R156). -/
def vectorFor (c : Params) (h : Nat) : Byte := if h % 2 = 0 then c.vecTop else c.vecMid

/-- The vectors of the half-frames `h0 + 1` to `h1`, ascending (R156). -/
def vectorsBetween (c : Params) (h0 h1 : Nat) : List Byte := (List.range' (h0 + 1) (h1 - h0)).map (vectorFor c)

/-- `tick(n)`: one push for every half-frame boundary crossed since the last observation, then the count is remembered
(R156); a count below `CYC_PREV` is refused (D26, U5; log entry 21). -/
def observe (c : Params) (s : State) (n : Count) : Host.Outcome State Fault Refusal :=
  if n.toNat < s.cycPrev.toNat then .refused .countDecreased
  else pushVectors c ((s.setCycPrev n).answer .silent) (vectorsBetween c (halfFrame c s.cycPrev) (halfFrame c n))

/-! ## The input latch (spec/43_input_latch.md) -/

/-- `latch_set f, i` (R140). -/
def setBit (s : State) (f : LatchField) (i : BitVec 3) : State := s.setLatch f (s.latch f ||| bitMask i)

/-- `latch_clear f, i` (R141). -/
def clearBit (s : State) (f : LatchField) (i : BitVec 3) : State := s.setLatch f (s.latch f &&& ~~~bitMask i)

/-! ## The address decoder (spec/20_memory.md R40, R41) -/

/-- What the decoder answers for an address; nothing else happens (R41: "total and pure"). -/
def resolve (s : State) (a : Addr) : State := s.answer (.place (region a).1 (region a).2)

end Sys2Proof.Machine
end

