-- ==== Sys2Proof/Machine/AddressTx.lean ====
section
/-! DEFINITION. The seven address-decode rows (spec/30_encoding.md R75): each gives the address decoder the address its
pattern and free bits
spell, and is answered with the store and index the decoder resolves it to (spec/20_memory.md R40; DESIGN CHOICE, safe, log
entry 10). -/

namespace Sys2Proof.Machine

/-- `view.PROG`. -/
def execViewProg (x : BitVec 13) (s : State) : Host.Outcome State Fault Refusal :=
  .next (resolve s (patternAddr 0b000#3 x))

/-- `view.WRAM`. -/
def execViewWram (x : BitVec 10) (s : State) : Host.Outcome State Fault Refusal :=
  .next (resolve s (patternAddr 0b001000#6 x))

/-- `view.VRAM.0`. -/
def execViewVram0 (x : BitVec 10) (s : State) : Host.Outcome State Fault Refusal :=
  .next (resolve s (patternAddr 0b001001#6 x))

/-- `view.VRAM.1`. -/
def execViewVram1 (x : BitVec 11) (s : State) : Host.Outcome State Fault Refusal :=
  .next (resolve s (patternAddr 0b00101#5 x))

/-- `view.VRAM.2`. -/
def execViewVram2 (x : BitVec 12) (s : State) : Host.Outcome State Fault Refusal :=
  .next (resolve s (patternAddr 0b0011#4 x))

/-- `view.MIRROR.0`. -/
def execViewMirror0 (x : BitVec 14) (s : State) : Host.Outcome State Fault Refusal :=
  .next (resolve s (patternAddr 0b01#2 x))

/-- `view.MIRROR.1`. -/
def execViewMirror1 (x : BitVec 15) (s : State) : Host.Outcome State Fault Refusal :=
  .next (resolve s (patternAddr 0b1#1 x))

end Sys2Proof.Machine
end

