-- ==== Sys2Proof/Machine/LatchTx.lean ====
section
/-! DEFINITION. The input-latch transactions and the named inputs (spec/43_input_latch.md). -/

namespace Sys2Proof.Machine

/-- `latch_set f, i` (R140). -/
def execLatchSet (f : LatchField) (i : BitVec 3) (s : State) : Host.Outcome State Fault Refusal :=
  .next ((setBit s f i).answer .silent)

/-- `latch_clear f, i` (R141). -/
def execLatchClear (f : LatchField) (i : BitVec 3) (s : State) : Host.Outcome State Fault Refusal :=
  .next ((clearBit s f i).answer .silent)

/-- `press name`: `latch_set f, i` with `(f, i) = INPUT_MAP(name)` (R143, spec/30_encoding.md R83). -/
def execPress (n : InputName) (s : State) : Host.Outcome State Fault Refusal :=
  .next ((setBit s (params.inputMap.get n).field (params.inputMap.get n).bit).answer .silent)

/-- `release name`: `latch_clear f, i` with `(f, i) = INPUT_MAP(name)` (R143, spec/30_encoding.md R83). -/
def execRelease (n : InputName) (s : State) : Host.Outcome State Fault Refusal :=
  .next ((clearBit s (params.inputMap.get n).field (params.inputMap.get n).bit).answer .silent)

end Sys2Proof.Machine
end

