-- ==== Sys2Proof/Machine/MemoryTx.lean ====
section
/-! DEFINITION. The memory transactions and the pseudo-transactions built from them (spec/40_memory_ops.md). None writes a
register and none
fails. -/

namespace Sys2Proof.Machine

/-- `read_byte addr` (R90). -/
def execReadByte (addr : Addr) (s : State) : Host.Outcome State Fault Refusal :=
  .next (s.answer (.byte (memRead s addr)))

/-- `write_byte addr, v` (R91). -/
def execWriteByte (addr : Addr) (v : Byte) (s : State) : Host.Outcome State Fault Refusal :=
  .next ((memWrite s addr v).answer .silent)

/-- `load_byte addr, v` (R92): "the transaction is defined whenever it is issued" (spec/70_reset_and_hazards.md R184); that a run
in which it comes after the start is refused is said in `loadGate`. -/
def execLoadByte (addr : Addr) (v : Byte) (s : State) : Host.Outcome State Fault Refusal :=
  .next ((memLoad s addr v).answer .silent)

/-- `read_word addr` (R93). -/
def execReadWord (addr : Addr) (s : State) : Host.Outcome State Fault Refusal :=
  .next (s.answer (.word (memReadWord s addr)))

/-- `write_word addr, w` (R94). -/
def execWriteWord (addr : Addr) (w : Word16) (s : State) : Host.Outcome State Fault Refusal :=
  .next ((memWriteWord s addr w).answer .silent)

/-- `load_image base, bytes` (R95). -/
def execLoadImage (base : Addr) (bytes : List Byte) (s : State) : Host.Outcome State Fault Refusal :=
  .next ((loadBytes s base bytes).answer .silent)

/-- `load_rom blk0, blk1, blk2, blk3` (spec/30_encoding.md R83, spec/70_reset_and_hazards.md R183). -/
def execLoadRom (b0 b1 b2 b3 : List Byte) (s : State) : Host.Outcome State Fault Refusal :=
  .next ((loadBlocks s b0 b1 b2 b3).answer .silent)

/-- `frame_scan` (R96). -/
def execFrameScan (s : State) : Host.Outcome State Fault Refusal :=
  .next (s.answer (.bytes (frameBytes s)))

end Sys2Proof.Machine
end

