-- ==== Sys2Proof/Machine/PortTx.lean ====
section
/-! DEFINITION. The port transactions, one per device of each direction (spec/41_port_io.md). -/

namespace Sys2Proof.Machine

/-- `IN.A` (R111). -/
def execInA (s : State) : Host.Outcome State Fault Refusal :=
  .next (inputA params s)

/-- `IN.B` (R112). -/
def execInB (s : State) : Host.Outcome State Fault Refusal :=
  .next (inputB params s)

/-- `IN.SHIFT` (R113). -/
def execInShift (s : State) : Host.Outcome State Fault Refusal :=
  .next (shiftRead params s)

/-- `IN.WDG` (R114). -/
def execInWdg (s : State) : Host.Outcome State Fault Refusal :=
  .next (watchdogRead params s)

/-- `IN.UNK` (R115). -/
def execInUnk (p : Port) (s : State) : Host.Outcome State Fault Refusal :=
  .next (unknownRead s p)

/-- `OUT.OFFSET` (R117). -/
def execOutOffset (d : Byte) (s : State) : Host.Outcome State Fault Refusal :=
  .next ((s.setSo (offsetOf d)).answer .silent)

/-- `OUT.DATA` (R118). -/
def execOutData (d : Byte) (s : State) : Host.Outcome State Fault Refusal :=
  .next ((s.setSr (shiftLoad s.sr d)).answer .silent)

/-- `OUT.WDG` (R119): the byte written is discarded. -/
def execOutWdg (_d : Byte) (s : State) : Host.Outcome State Fault Refusal :=
  .next (s.answer .silent)

/-- `OUT.UNK` (R120). -/
def execOutUnk (p : Port) (d : Byte) (s : State) : Host.Outcome State Fault Refusal :=
  .next (s.report .silent (.unknownOut p d))

end Sys2Proof.Machine
end

