-- ==== Sys2Proof/Machine/QueueTx.lean ====
section
/-! DEFINITION. The interrupt-queue transactions (spec/42_interrupt_queue.md) and the interrupt source's `tick`
(spec/60_exceptions.md). -/

namespace Sys2Proof.Machine

/-- `push v` (R130). -/
def execPush (v : Byte) (s : State) : Host.Outcome State Fault Refusal :=
  pushVectors params (s.answer .silent) [v]

/-- `pop` (R132, R133). -/
def execPop (s : State) : Host.Outcome State Fault Refusal :=
  popVector s

/-- `has_pending` (R131). -/
def execHasPending (s : State) : Host.Outcome State Fault Refusal :=
  .next (s.answer (.bit (pending s)))

/-- `tick c` (spec/60_exceptions.md R156). -/
def execTick (n : Count) (s : State) : Host.Outcome State Fault Refusal :=
  observe params s n

end Sys2Proof.Machine
end

