-- ==== Sys2Proof/Machine/Dispatch.lean ====
section
/-! DEFINITION. What each row of spec/opcode_table.json does: one arm per constructor, in the table's order. -/

namespace Sys2Proof.Machine

def exec (i : Instr) (s : State) : Host.Outcome State Fault Refusal :=
  match i with
  | .readByte addr => Sys2Proof.Machine.execReadByte addr s
  | .writeByte addr v => Sys2Proof.Machine.execWriteByte addr v s
  | .loadByte addr v => Sys2Proof.Machine.execLoadByte addr v s
  | .readWord addr => Sys2Proof.Machine.execReadWord addr s
  | .writeWord addr w => Sys2Proof.Machine.execWriteWord addr w s
  | .inA => Sys2Proof.Machine.execInA s
  | .inB => Sys2Proof.Machine.execInB s
  | .inShift => Sys2Proof.Machine.execInShift s
  | .inWdg => Sys2Proof.Machine.execInWdg s
  | .inUnk p => Sys2Proof.Machine.execInUnk p s
  | .outOffset d => Sys2Proof.Machine.execOutOffset d s
  | .outData d => Sys2Proof.Machine.execOutData d s
  | .outWdg d => Sys2Proof.Machine.execOutWdg d s
  | .outUnk p d => Sys2Proof.Machine.execOutUnk p d s
  | .push v => Sys2Proof.Machine.execPush v s
  | .pop => Sys2Proof.Machine.execPop s
  | .hasPending => Sys2Proof.Machine.execHasPending s
  | .latchSet f b => Sys2Proof.Machine.execLatchSet f b s
  | .latchClear f b => Sys2Proof.Machine.execLatchClear f b s
  | .tick c => Sys2Proof.Machine.execTick c s
  | .loadImage base bytes => Sys2Proof.Machine.execLoadImage base bytes s
  | .loadRom b0 b1 b2 b3 => Sys2Proof.Machine.execLoadRom b0 b1 b2 b3 s
  | .frameScan => Sys2Proof.Machine.execFrameScan s
  | .press n => Sys2Proof.Machine.execPress n s
  | .release n => Sys2Proof.Machine.execRelease n s
  | .viewProg x => Sys2Proof.Machine.execViewProg x s
  | .viewWram x => Sys2Proof.Machine.execViewWram x s
  | .viewVram0 x => Sys2Proof.Machine.execViewVram0 x s
  | .viewVram1 x => Sys2Proof.Machine.execViewVram1 x s
  | .viewVram2 x => Sys2Proof.Machine.execViewVram2 x s
  | .viewMirror0 x => Sys2Proof.Machine.execViewMirror0 x s
  | .viewMirror1 x => Sys2Proof.Machine.execViewMirror1 x s

end Sys2Proof.Machine
end

