-- ==== Sys2Proof/Machine/Schedule.lean ====
section
/-! DEFINITION. How a request reaches the block and what the run around it asks: the total order of holds (spec/20_memory.md R51,
R52), decoding a request, the boot order (spec/70_reset_and_hazards.md R182, R184), the engine's poll (spec/60_exceptions.md
R160, R161). `step` in Step.lean only calls these. -/

namespace Sys2Proof.Machine

/-- A request taken from the order of holds: who issues it, the request, how far its hold had come,
what is left of the hold, and the holds after it. -/
structure Taken where
  agent   : Option Agent
  request : Request
  stage   : Stage
  more    : List Request
  rest    : List Hold
  deriving DecidableEq, Repr

/-- The next request in the total order (R51): the first one of the first hold that has one. `none` when no agent has
anything to issue. -/
def nextRequest : List Hold → Option Taken
  | [] => none
  | h :: hs =>
    match h.requests with
    | [] => nextRequest hs
    | r :: rs => some ⟨h.agent, r, h.stage, rs, hs⟩

/-- A hold put in front of the holds to come, so that no other agent enters it (R52); one with nothing left to issue is
released. -/
def resume (agent : Option Agent) (stage : Stage) : List Request → List Hold → List Hold
  | [], hs => hs
  | r :: rs, hs => ⟨agent, r :: rs, stage⟩ :: hs

/-- How far a hold has come once one more of its requests has been taken. -/
def nextStage : Stage → Stage
  | .fresh => .begun
  | .begun => .begun
  | .popDue => .served
  | .served => .served

/-- Whether a poll of the hold may still lead to a `pop`: none has (spec/60_exceptions.md R160: "At most one `pop` per step"). -/
def mayPop : Stage → Bool
  | .fresh => true
  | .begun => true
  | .popDue => false
  | .served => false

/-- Whether an engine step has begun whose `tick` is still to come, once an agent has issued a request: a request of the engine is
of a step, and one of the interrupt source is the step's `tick` (spec/20_memory.md R56; log entry 30). -/
def tickDueAfter (due : Bool) : Option Agent → Bool
  | some .engine => true
  | some .source => false
  | some .presentation => due
  | some .loader => due
  | none => due

/-- Whether an agent other than the loader has started, once an agent has issued a request (spec/20_memory.md R50 (d): the loader
issues its loads "before the other three start"; log entry 31). -/
def bootedAfter (booted : Bool) : Option Agent → Bool
  | some .engine => true
  | some .source => true
  | some .presentation => true
  | some .loader => booted
  | none => booted

/-- The state with a request taken: the holds left, the engine and the boot marked by who issued the request (R182), and the
`tick` as due or done. -/
def State.take (s : State) (t : Taken) : State :=
  { s with
    started := s.started || t.agent == some .engine
    booted := bootedAfter s.booted t.agent
    tickDue := tickDueAfter s.tickDue t.agent
    holds := resume t.agent (nextStage t.stage) t.more t.rest }

/-- The transaction a request is: a word is decoded (R74: an invalid one is refused by name), a named transaction has its
operands checked, and a poll is a `has_pending` (R160). -/
def instrOf : Request → Except Refusal Instr
  | .word w =>
    match decode params w with
    | .ok i => .ok i
    | .error e => .error (.invalidWord e)
  | .named i => if wellFormed params i then .ok i else .error .illFormed
  | .poll _ _ => .ok .hasPending

/-- The transactions of the load path (spec/40_memory_ops.md R92, R95, spec/70_reset_and_hazards.md R183). -/
def isLoad : Instr → Bool
  | .loadByte _ _ => true
  | .loadImage _ _ => true
  | .loadRom _ _ _ _ => true
  | _ => false

/-- R184: a run in which a load comes after the engine has started is refused (U9; UNVERIFIED, safe, log entry 8). -/
def loadGate (s : State) (i : Instr) : Option Refusal :=
  if isLoad i && s.started then some .loadAfterStart else none

/-- The engine's answer to its own `has_pending` (R160, R161): where it returned 1, the engine's enable condition holds and the
step has not popped yet, one `pop` and then the service transactions follow, in front of what is left of the same hold;
otherwise nothing does, and the vector stays queued (D13; DESIGN CHOICE, log entry 18). -/
def followPoll (t : Taken) (enabled : Bool) (service : List Instr) (s : State) : State :=
  if mayPop t.stage && enabled && s.response == .bit true then
    { s with holds := resume t.agent .popDue (.named .pop :: (service.map .named ++ t.more)) t.rest }
  else s

/-- What follows a request: the engine's decision after a poll, and nothing otherwise. -/
def settle (t : Taken) (o : Host.Outcome State Fault Refusal) : Host.Outcome State Fault Refusal :=
  match t.request, o with
  | .poll enabled service, .next s => .next (followPoll t enabled service s)
  | _, o => o

/-- The state with a request put first in the total order, as a hold of its own with no agent named: spec/20_memory.md R50
lets any agent issue any transaction. -/
def State.issue (s : State) (r : Request) : State := { s with holds := ⟨none, [r], .fresh⟩ :: s.holds }

end Sys2Proof.Machine
end

