-- ==== Sys2Proof/Machine/Step.lean ====
section
/-! DEFINITION. One step of the machine: one request of the total order of spec/20_memory.md R51, "to completion before the next
begins". The block fetches nothing (spec/10_state.md R22): its next transaction is the next request of the holds. -/

namespace Sys2Proof.Machine

/-- One step. With no request to take, the block waits and nothing changes (DESIGN CHOICE, log entry 9). -/
def step (s : State) : Host.Outcome State Fault Refusal :=
  match nextRequest s.holds with
  | none => .next s
  | some t =>
    match instrOf t.request with
    | .error r => .refused r
    | .ok i =>
      match loadGate s i with
      | some r => .refused r
      | none => settle t (exec i (s.take t))

/-- `s` with the word whose bits are `w` (in the numbering of spec/opcode_table.json, for a row of `nbits` bits) as the next
request (DESIGN CHOICE, log entry 11). -/
def State.withFetchWord (s : State) (nbits w : Nat) : State := s.issue (.word (TWord.ofTable nbits w))

end Sys2Proof.Machine
end

