-- ==== Sys2Proof/Machine/Agents.lean ====
section
/-! DEFINITION. What the spec assumes of the four agents (spec/20_memory.md R50, R52, R55, R56): which transactions each issues,
the boot order, the execution unit's order of step, `tick`, step (spec/60_exceptions.md R156, R164 (d)), the consumer's protocol
(R160) and the rising cycle count. The machine asks none of it of its inputs (R50, log entry 1: "a model that lets any agent
issue any transaction admits more runs, which is the safe direction"); it is the premise of the claims about runs of conforming
agents. -/

namespace Sys2Proof.Machine

/-- The agents that issue a transaction (R50): (a) the engine, (b) the interrupt source, (c) the presentation unit, whose memory
reads are of the video view, (d) the loader. No agent issues `push` on its own: it is the effect of `tick`
(spec/42_interrupt_queue.md R130). The address patterns are no transactions. -/
def issuers : Instr → List Agent
  | .readByte a => if (region a).1 = .VRAM then [.engine, .presentation] else [.engine]
  | .writeByte _ _ => [.engine]
  | .loadByte _ _ => [.loader]
  | .readWord _ => [.engine]
  | .writeWord _ _ => [.engine]
  | .inA => [.engine]
  | .inB => [.engine]
  | .inShift => [.engine]
  | .inWdg => [.engine]
  | .inUnk _ => [.engine]
  | .outOffset _ => [.engine]
  | .outData _ => [.engine]
  | .outWdg _ => [.engine]
  | .outUnk _ _ => [.engine]
  | .push _ => []
  | .pop => [.engine]
  | .hasPending => [.engine]
  | .latchSet _ _ => [.presentation]
  | .latchClear _ _ => [.presentation]
  | .tick _ => [.source]
  | .loadImage _ _ => [.loader]
  | .loadRom _ _ _ _ => [.loader]
  | .frameScan => [.presentation]
  | .press _ => [.presentation]
  | .release _ => [.presentation]
  | .viewProg _ => []
  | .viewWram _ => []
  | .viewVram0 _ => []
  | .viewVram1 _ => []
  | .viewVram2 _ => []
  | .viewMirror0 _ => []
  | .viewMirror1 _ => []

/-- Whether an agent issues a transaction (R50). -/
def mayIssue (a : Agent) (i : Instr) : Bool := a ∈ issuers i

/-- The agent R50 gives a transaction, for a text that names none (spec/30_encoding.md R82): the first of its issuers, and for a
`push` the interrupt source, whose effect it is (spec/42_interrupt_queue.md R130). -/
def issuer (i : Instr) : Option Agent :=
  match i with
  | .push _ => some .source
  | i => (issuers i).head?

/-- One request, and the agent that issues it if it is named. -/
abbrev Issue := Option Agent × Request

/-- The total order of requests that a list of holds is (R51). -/
def flat (hs : List Hold) : List Issue := hs.flatMap fun h => h.requests.map fun r => (h.agent, r)

/-- Whether a request is the engine's poll. -/
def isPoll : Request → Bool
  | .word _ => false
  | .named _ => false
  | .poll _ _ => true

/-- A transaction the engine issues on its own: well-formed, on its list (R50), and no `pop`, which it issues through its poll alone
(R55, spec/42_interrupt_queue.md R132). -/
def engineIssues (i : Instr) : Bool := wellFormed params i && mayIssue .engine i && i != .pop

/-- The transactions that service a popped vector are the engine's own; other requests have none. -/
def serviceOk : Request → Bool
  | .word _ => true
  | .named _ => true
  | .poll _ service => service.all engineIssues

/-- A request an agent issues: a valid transaction of its list (R50), no `pop` outside a poll. -/
def requestOk (a : Agent) (r : Request) : Bool :=
  match instrOf r with
  | .error _ => false
  | .ok i => mayIssue a i && i != .pop && serviceOk r

/-- The requests of one engine step that are left (R55): each is the engine's, and a poll stands at an instruction boundary (R160,
R162), first in the step or last in it, whether the engine services the vector before its instruction or after it (U11).
`fresh` says that none of the step's requests has been taken. -/
def stepOk : Bool → List Request → Bool
  | _, [] => true
  | fresh, r :: rs => requestOk .engine r && (!isPoll r || fresh || rs.isEmpty) && stepOk false rs

/-- The count of a request that is a `tick` (spec/60_exceptions.md R156). -/
def tickOf (r : Request) : Option Count :=
  match instrOf r with
  | .ok (.tick n) => some n
  | _ => none

/-- Whether a request is a memory read of one byte. -/
def isRead (r : Request) : Bool :=
  match instrOf r with
  | .ok (.readByte _) => true
  | _ => false

/-- Requests that are the last reads of a frame scan (R50 (c), spec/40_memory_ops.md R96), one per video address, ascending. -/
def scanLeft (rs : List Request) : Bool :=
  rs.map (fun r => (instrOf r).toOption) == (videoAddrs.drop (videoAddrs.length - rs.length)).map fun a => some (.readByte a)

/-- A hold of the presentation unit: one latch operation (R52 (d)), or the reads of one frame scan (R52 (c)), in one request or as
what is left of all of them. `fresh` says that none of its requests has been taken. -/
def presentationOk (fresh : Bool) (r : Request) (rs : List Request) : Bool :=
  (rs.isEmpty && requestOk .presentation r && !isRead r) ||
    ((!fresh || (r :: rs).length == videoAddrs.length) && scanLeft (r :: rs))

/-- The holds to come keep the contract. `due` says that an engine step is done whose `tick` is not, `booted` that an agent other
than the loader has started, `prev` is the count last observed. Within the execution unit a step is followed by its one `tick`,
with a count that has not fallen, before the next step (R56, spec/60_exceptions.md R156, R164 (d)); the presentation unit takes
its holds between any two of them (R52, R164 (c)); the loader takes its own before the other three start (R50 (d), R56,
spec/70_reset_and_hazards.md R182). A hold with no request issues nothing and counts for nothing. -/
def orderOk (due booted : Bool) (prev : Nat) : List Hold → Bool
  | [] => true
  | h :: hs =>
    match h.requests with
    | [] => orderOk due booted prev hs
    | r :: rs =>
      match h.agent with
      | none => false
      | some .engine => !due && h.stage == .fresh && stepOk true (r :: rs) && orderOk true true prev hs
      | some .source =>
        match tickOf r with
        | none => false
        | some n => due && rs.isEmpty && decide (prev ≤ n.toNat) && orderOk false true n.toNat hs
      | some .presentation => presentationOk (h.stage == .fresh) r rs && orderOk due true prev hs
      | some .loader => !booted && (r :: rs).all (requestOk .loader) && orderOk due booted prev hs

/-- Whether a hold is an engine step some of whose requests, but not all, have been taken. -/
def midStep (h : Hold) : Bool := h.agent == some .engine && h.stage != .fresh && !h.requests.isEmpty

/-- What is left of an engine step in progress keeps the contract: the `pop` its poll has led to finds the queue not empty. -/
def midStepOk (s : State) (h : Hold) : Bool :=
  if h.stage = .popDue then s.iq != [] && h.requests.head? == some (.named .pop) && stepOk false h.requests.tail
  else stepOk false h.requests

/-- The inputs of a state keep the agents' contract: what is left of an engine step in progress, and every hold to come. -/
def Conforming (s : State) : Prop :=
  match s.holds with
  | [] => True
  | h :: hs =>
    if midStep h then
      s.started = true ∧ s.tickDue = true ∧ midStepOk s h = true ∧ orderOk true true s.cycPrev.toNat hs = true
    else orderOk s.tickDue (s.started || s.booted) s.cycPrev.toNat (h :: hs) = true

end Sys2Proof.Machine
end

