-- ==== Sys2Proof/Machine/Text.lean ====
section
/-! DEFINITION. The textual form of a transaction (spec/30_encoding.md R82, the spec's own, D15; DESIGN CHOICE, log entry
12): one line, its
mnemonic or short mnemonic followed by operands separated by commas, an optional agent letter and colon first, a comment from
`;` to the end; with the pseudo-transactions of R83, whose byte lists are separated by blanks. -/

namespace Sys2Proof.Machine

/-- The pieces of a text between occurrences of a separator. -/
def splitText (sep : Char → Bool) : List Char → List (List Char)
  | [] => [[]]
  | ch :: cs =>
    if sep ch then [] :: splitText sep cs
    else
      match splitText sep cs with
      | [] => [[ch]]
      | w :: ws => (ch :: w) :: ws

/-- A blank. -/
def isBlank (ch : Char) : Bool := ch == ' ' || ch == '\t'

/-- The words of a text: its pieces between blanks. -/
def wordsOf (cs : List Char) : List (List Char) := (splitText isBlank cs).filter (!·.isEmpty)

/-- The value of a digit, in any base up to 16. -/
def digitValue (ch : Char) : Nat :=
  if '0' ≤ ch ∧ ch ≤ '9' then ch.toNat - '0'.toNat
  else if 'A' ≤ ch ∧ ch ≤ 'F' then ch.toNat - 'A'.toNat + 10
  else if 'a' ≤ ch ∧ ch ≤ 'f' then ch.toNat - 'a'.toNat + 10
  else 16

/-- A numeral in a base: at least one digit, each below the base. -/
def numeral (base : Nat) (cs : List Char) : Option Nat :=
  if cs.isEmpty then none
  else cs.foldl (fun acc ch => acc.bind fun n => if digitValue ch < base then some (n * base + digitValue ch) else none) (some 0)

/-- A number: "`0x` hexadecimal, `0b` binary, otherwise decimal" (spec/00_scope.md section 5). -/
def number : List Char → Option Nat
  | '0' :: 'x' :: cs => numeral 16 cs
  | '0' :: 'b' :: cs => numeral 2 cs
  | cs => numeral 10 cs

/-- A number that fits `w` bits. -/
def numberOf (w : Nat) (cs : List Char) : Option (BitVec w) :=
  match number cs with
  | some n => if n < 2 ^ w then some (BitVec.ofNat w n) else none
  | none => none

/-- A port number, of `PORT_WIDTH` bits (spec/00_scope.md R5). -/
def portOf (c : Params) (cs : List Char) : Option Port := (numberOf 16 cs).filter (fits c)

/-- A list of bytes. -/
def bytesOf (ws : List (List Char)) : Option (List Byte) := ws.mapM (numberOf 8)

/-- A latch field, "written `A` or `B`" (R82). -/
def fieldOf : List Char → Option LatchField
  | ['A'] => some .A
  | ['B'] => some .B
  | _ => none

/-- The transactions and pseudo-transactions that have a textual form. -/
inductive Mnemonic where
  | readByte | writeByte | loadByte | readWord | writeWord | portIn | portOut | push | pop | hasPending
  | latchSet | latchClear | tick | loadImage | loadRom | frameScan | press | release
  deriving DecidableEq, Repr

/-- The mnemonics of R70 with their short forms, "accepted as equals" (R82), and those of R83. -/
def mnemonics : List (String × Mnemonic) := [
  ("read_byte", .readByte), ("RB", .readByte), ("write_byte", .writeByte), ("WB", .writeByte),
  ("load_byte", .loadByte), ("LB", .loadByte), ("read_word", .readWord), ("RW", .readWord),
  ("write_word", .writeWord), ("WW", .writeWord), ("port_in", .portIn), ("IN", .portIn),
  ("port_out", .portOut), ("OUT", .portOut), ("push", .push), ("PUSH", .push), ("pop", .pop), ("POP", .pop),
  ("has_pending", .hasPending), ("PEND", .hasPending), ("latch_set", .latchSet), ("LSET", .latchSet),
  ("latch_clear", .latchClear), ("LCLR", .latchClear), ("tick", .tick), ("TICK", .tick),
  ("load_image", .loadImage), ("load_rom", .loadRom), ("frame_scan", .frameScan), ("press", .press),
  ("release", .release)]

/-- The names of the named inputs (R83). -/
def inputNames : List (String × InputName) := [
  ("coin", .coin), ("p1_left", .p1Left), ("p1_right", .p1Right), ("p1_fire", .p1Fire),
  ("start_1p", .start1p), ("start_2p", .start2p)]

/-- The entry of a table under a name. -/
def named {α : Type} (table : List (String × α)) (cs : List Char) : Option α :=
  (table.find? fun e => e.1.toList == cs).map (·.2)

/-- The transaction of a mnemonic and its operands, each operand a list of words. -/
def assemble (c : Params) : Mnemonic → List (List (List Char)) → Option Instr
  | .readByte, [[a]] => (numberOf 16 a).map .readByte
  | .writeByte, [[a], [v]] => do return .writeByte (← numberOf 16 a) (← numberOf 8 v)
  | .loadByte, [[a], [v]] => do return .loadByte (← numberOf 16 a) (← numberOf 8 v)
  | .readWord, [[a]] => (numberOf 16 a).map .readWord
  | .writeWord, [[a], [w]] => do return .writeWord (← numberOf 16 a) (← numberOf 16 w)
  | .portIn, [[p]] => (portOf c p).map (portInRow c)
  | .portOut, [[p], [d]] => do return portOutRow c (← portOf c p) (← numberOf 8 d)
  | .push, [[v]] => (numberOf 8 v).map .push
  | .pop, [] => some .pop
  | .hasPending, [] => some .hasPending
  | .latchSet, [[f], [i]] => do return .latchSet (← fieldOf f) (← numberOf 3 i)
  | .latchClear, [[f], [i]] => do return .latchClear (← fieldOf f) (← numberOf 3 i)
  | .tick, [[n]] => (numberOf 64 n).map .tick
  | .loadImage, [[a], vs] => do return .loadImage (← numberOf 16 a) (← bytesOf vs)
  | .loadRom, [b0, b1, b2, b3] => do return .loadRom (← bytesOf b0) (← bytesOf b1) (← bytesOf b2) (← bytesOf b3)
  | .frameScan, [] => some .frameScan
  | .press, [[n]] => (named inputNames n).map .press
  | .release, [[n]] => (named inputNames n).map .release
  | _, _ => none

/-- The agent a letter names (R82): `E`, `S`, `P` or `L`. -/
def agentOf : Char → Option Agent
  | 'E' => some .engine
  | 'S' => some .source
  | 'P' => some .presentation
  | 'L' => some .loader
  | _ => none

/-- A line without its comment (R82). -/
def dropComment (cs : List Char) : List Char := cs.takeWhile (· != ';')

/-- The agent letter of a line, if it has one, and the rest of the line (R82). -/
def splitAgent (cs : List Char) : Option Agent × List Char :=
  match cs.dropWhile isBlank with
  | a :: ':' :: rest => match agentOf a with
    | some agent => (some agent, rest)
    | none => (none, cs)
  | _ => (none, cs)

/-- The operands of a line: its pieces between commas, as words; a line with no operand has none. -/
def operandsOf (cs : List Char) : List (List (List Char)) :=
  match (splitText (· == ',') cs).map wordsOf with
  | [[]] => []
  | ops => ops

/-- A line of text as the request it is and the agent that issues it: the one its letter names, or, "when it is left out", the
one R50 gives the transaction (R82). -/
def parseLine (c : Params) (line : String) : Option (Option Agent × Request) :=
  let (agent, rest) := splitAgent (dropComment line.toList)
  let body := rest.dropWhile isBlank
  let (name, args) := (body.takeWhile (!isBlank ·), body.dropWhile (!isBlank ·))
  ((named mnemonics name).bind fun m => assemble c m (operandsOf args)).map fun i => (agent.or (issuer i), .named i)

end Sys2Proof.Machine
end

