-- ==== Sys2Proof/Safety.lean ====
section
/-! DEFINITION. What counts as a safe run, in the terms the claims use: the invariants of the state, and an outcome that is no
fault. The one "gone wrong" outcome of the block is the defect `PopEmpty` (spec/60_exceptions.md R153). -/

namespace Sys2Proof.Machine

/-- The three stores are in canonical form and hold only indexes inside their size (spec/10_state.md R10, R31 (c)). -/
def StoresOk (s : State) : Prop :=
  ∀ st : Store, (s.store st).wf = true ∧ (s.store st).below (storeSize st) = true

/-- `IQ` holds exactly the vectors of the last half-frames entered up to `CYC_PREV`, oldest first: what it holds when every
push has come from `tick` (spec/10_state.md R31 (d), spec/60_exceptions.md R158). -/
def QueueOfTicks (c : Params) (s : State) : Prop :=
  s.iq.length ≤ halfFrame c s.cycPrev ∧
    s.iq = vectorsBetween c (halfFrame c s.cycPrev - s.iq.length) (halfFrame c s.cycPrev)

/-- A run is safe when no step of it faults. -/
def Safe (s : State) : Prop := ∀ f, step s ≠ .fault f

/-- Transactions one after the other (spec/20_memory.md R51), with no agent's boundary between them. -/
def execAll : List Instr → State → Host.Outcome State Fault Refusal
  | [], s => .next s
  | i :: is, s =>
    match exec i s with
    | .next t => execAll is t
    | .fault f => .fault f
    | .refused r => .refused r

/-- The state after a number of steps; `none` when one of them stops. -/
def stepsFrom : Nat → State → Option State
  | 0, s => some s
  | n + 1, s =>
    match step s with
    | .next t => stepsFrom n t
    | .fault _ => none
    | .refused _ => none

/-- The execution unit's turns in an order of holds: who of the engine and the interrupt source takes the block, hold by hold
(spec/60_exceptions.md R164 (d)). A hold with no request is no turn. -/
def unitTurns (hs : List Hold) : List Agent :=
  ((hs.filter fun h => !h.requests.isEmpty).filterMap (·.agent)).filter fun a => a == .engine || a == .source

/-- The vectors an instruction pushes in a state: its operand for `push`, one for each boundary crossed for `tick`
(spec/42_interrupt_queue.md R130, spec/60_exceptions.md R156). -/
def pushedBy (c : Params) (s : State) : Instr → List Byte
  | .push v => [v]
  | .tick n => vectorsBetween c (halfFrame c s.cycPrev) (halfFrame c n)
  | _ => []

/-- The vector an instruction that left the state `t` popped: the response of a `pop` (spec/42_interrupt_queue.md R132). -/
def poppedBy (t : State) : Instr → List Byte
  | .pop => match t.response with
    | .byte v => [v]
    | _ => []
  | _ => []

/-- What a sequence of transactions leaves: the state, the vectors popped and the vectors pushed, both in order. -/
structure Trace where
  state  : State
  popped : List Byte
  pushed : List Byte
  deriving DecidableEq, Repr

/-- `execAll`, keeping what was popped and pushed; `none` when a transaction stops. -/
def execTrace : List Instr → State → Option Trace
  | [], s => some ⟨s, [], []⟩
  | i :: is, s =>
    match exec i s with
    | .next t => (execTrace is t).map fun r => ⟨r.state, poppedBy t i ++ r.popped, pushedBy params s i ++ r.pushed⟩
    | _ => none

/-- The bytes a sequence of transactions writes to the shift-offset port, in order. -/
def offsetWrites (is : List Instr) : List Byte :=
  is.filterMap fun
    | .outOffset d => some d
    | _ => none

/-- The bytes a sequence of transactions writes to the shift-data port, in order. -/
def dataWrites (is : List Instr) : List Byte :=
  is.filterMap fun
    | .outData d => some d
    | _ => none

/-- Whether a run-time write to an address is stored and not dropped (spec/20_memory.md R43). -/
def stores (a : Addr) : Bool := (region a).1 != .PROG

/-- The addresses of the bytes an instruction stores to, computed with the functions its meaning uses: a word goes to `addr`
and `inc16 addr` (spec/40_memory_ops.md R94), each dropped in the program view, an image to the cursor's addresses (R95). Empty
where nothing is stored. -/
def storedAddrs : Instr → List Addr
  | .writeByte a _ => [a].filter stores
  | .loadByte a _ => [a]
  | .writeWord a _ => [a, inc16 a].filter stores
  | .loadImage base bytes => cursorAddrs base bytes
  | .loadRom b0 b1 b2 b3 =>
    cursorAddrs 0x0000 b0 ++ cursorAddrs 0x0800 b1 ++ cursorAddrs 0x1000 b2 ++ cursorAddrs 0x1800 b3
  | _ => []
where
  /-- The cursor's address at each byte of an image (R95). -/
  cursorAddrs : Addr → List Byte → List Addr
    | _, [] => []
    | a, _ :: vs => a :: cursorAddrs (inc16 a) vs

/-- The nine items of the block's state (spec/10_state.md R10). -/
inductive Item where
  | PROG
  | WRAM
  | VRAM
  | SR
  | SO
  | LA
  | LB
  | IQ
  | CYC_PREV
  deriving DecidableEq, Repr

/-- Two states agree on an item. -/
def agreeOn (s t : State) : Item → Prop
  | .PROG => s.prog = t.prog
  | .WRAM => s.wram = t.wram
  | .VRAM => s.vram = t.vram
  | .SR => s.sr = t.sr
  | .SO => s.so = t.so
  | .LA => s.la = t.la
  | .LB => s.lb = t.lb
  | .IQ => s.iq = t.iq
  | .CYC_PREV => s.cycPrev = t.cycPrev

/-- The latch item of a field. -/
def latchItem : LatchField → Item
  | .A => .LA
  | .B => .LB

/-- The item a store is. -/
def storeItem : Store → Item
  | .PROG => .PROG
  | .WRAM => .WRAM
  | .VRAM => .VRAM

/-- The items an instruction may write: the "w" marks of the access matrix (spec/10_state.md R26), a pseudo-transaction those
of its expansion (spec/30_encoding.md R83). -/
def mayWrite (c : Params) : Instr → List Item
  | .readByte _ => []
  | .writeByte _ _ => [.WRAM, .VRAM]
  | .loadByte _ _ => [.PROG, .WRAM, .VRAM]
  | .readWord _ => []
  | .writeWord _ _ => [.WRAM, .VRAM]
  | .inA => [.LA]
  | .inB => []
  | .inShift => []
  | .inWdg => []
  | .inUnk _ => []
  | .outOffset _ => [.SO]
  | .outData _ => [.SR]
  | .outWdg _ => []
  | .outUnk _ _ => []
  | .push _ => [.IQ]
  | .pop => [.IQ]
  | .hasPending => []
  | .latchSet f _ => [latchItem f]
  | .latchClear f _ => [latchItem f]
  | .tick _ => [.IQ, .CYC_PREV]
  | .loadImage _ _ => [.PROG, .WRAM, .VRAM]
  | .loadRom _ _ _ _ => [.PROG, .WRAM, .VRAM]
  | .frameScan => []
  | .press n => [latchItem (c.inputMap.get n).field]
  | .release n => [latchItem (c.inputMap.get n).field]
  | .viewProg _ => []
  | .viewWram _ => []
  | .viewVram0 _ => []
  | .viewVram1 _ => []
  | .viewVram2 _ => []
  | .viewMirror0 _ => []
  | .viewMirror1 _ => []

/-- The items an instruction may read: the "r" marks of the access matrix, where a memory read "touches one store only, the one
`region` selects" (R26). -/
def mayRead (c : Params) : Instr → List Item
  | .readByte a => [storeItem (region a).1]
  | .writeByte _ _ => []
  | .loadByte _ _ => []
  | .readWord a => [storeItem (region a).1, storeItem (region (inc16 a)).1]
  | .writeWord _ _ => []
  | .inA => [.LA]
  | .inB => [.LB]
  | .inShift => [.SR, .SO]
  | .inWdg => []
  | .inUnk _ => []
  | .outOffset _ => []
  | .outData _ => [.SR]
  | .outWdg _ => []
  | .outUnk _ _ => []
  | .push _ => [.IQ]
  | .pop => [.IQ]
  | .hasPending => [.IQ]
  | .latchSet f _ => [latchItem f]
  | .latchClear f _ => [latchItem f]
  | .tick _ => [.IQ, .CYC_PREV]
  | .loadImage _ _ => []
  | .loadRom _ _ _ _ => []
  | .frameScan => [.VRAM]
  | .press n => [latchItem (c.inputMap.get n).field]
  | .release n => [latchItem (c.inputMap.get n).field]
  | .viewProg _ => []
  | .viewWram _ => []
  | .viewVram0 _ => []
  | .viewVram1 _ => []
  | .viewVram2 _ => []
  | .viewMirror0 _ => []
  | .viewMirror1 _ => []

/-- The registers of the block: the items that are not byte stores. -/
def registers : List Item := [.SR, .SO, .LA, .LB, .IQ, .CYC_PREV]

end Sys2Proof.Machine
end

