-- ==== Sys2Proof/Certificates/Slice0/Obligations.lean ====
section
/-! DEFINITION. The statements for the provers, each listed in OBLIGATIONS.json with the rules it rests on. A response, a
diagnostic, the count of draws and the holds are the model's own fields (log entries 5, 7, 8, 9); the block's nine items are
those of spec/10_state.md R10. `s.answer r` is `s` with the response `r` and no diagnostic. -/

open Sys2Proof Sys2Proof.Machine

/-! ## Words and decoding -/

/-- R72, R73, R77, R78: words written out from the spec's encoding decode to what they stand for (the port numbers are the defaults,
log entry 2). -/
def Obligations.WordsFromTheEncodingTablesDecode : Prop :=
  decodeTableWord 40 0x00_2000_0000 = some (.readByte 0x2000) ∧
  decodeTableWord 40 0x04_23FF_1234 = some (.writeWord 0x23FF 0x1234) ∧
  decodeTableWord 40 0x08_0003_0000 = some .inShift ∧
  decodeTableWord 40 0x08_0004_0000 = some (.inUnk 4) ∧
  decodeTableWord 40 0x09_0004_00AB = some (.outData 0xAB) ∧
  decodeTableWord 40 0x09_0004_01AB = none ∧
  decodeTableWord 40 0x10_0000_00CF = some (.push 0xCF) ∧
  decodeTableWord 40 0x18_000F_0000 = some (.latchSet .B 7) ∧
  decodeTableWord 40 0x1A_0000_0000 = none ∧
  decodeTableWord 64 0x000000000000411A = some (.tick 16666) ∧
  decodeTableWord 16 0x2C00 = some (.viewVram1 0x400)

/-- R73 (`encode`), R83: for all parameters that satisfy R6 and every well-formed instruction with every operand value, decoding
its words gives back the transactions it stands for; for a transaction that is the transaction itself. -/
def Obligations.DecodeOfEncodeIsTheExpansion : Prop :=
  ∀ c : Params, c.Valid → ∀ i : Instr, wellFormed c i = true →
    (encode c i).map (decode c) = (expand c i).map Except.ok

/-- The other direction: a word that decodes is the one word of the instruction it decodes to, which is well-formed; so no two
words stand for one transaction and no bit of a valid word is dropped. -/
def Obligations.EncodeOfDecodeIsTheWord : Prop :=
  ∀ c : Params, c.Valid → ∀ (w : TWord) (i : Instr), decode c w = .ok i → encode c i = [w] ∧ wellFormed c i = true

/-- R73: "A word `T` is the transaction of a row when `T & mask = match`", with the twelve match and mask values of its table
and the operands of its `sel` and `data` columns; the two port rows for `PORT_WIDTH` = 8, for which the table writes them. -/
def Obligations.WordMatchingARowIsItsTransaction : Prop :=
  ∀ (c : Params) (w : BitVec 40),
    let addr := w.extractLsb' 16 16
    let port := (w.extractLsb' 16 8).setWidth 16
    let byte := w.extractLsb' 0 8
    let field := if w.getLsbD 19 then LatchField.B else LatchField.A
    let bit := w.extractLsb' 16 3
    (w &&& 0xFF0000FFFF = 0x0000000000 → decode c (.t40 w) = .ok (.readByte addr)) ∧
    (w &&& 0xFF0000FF00 = 0x0100000000 → decode c (.t40 w) = .ok (.writeByte addr byte)) ∧
    (w &&& 0xFF0000FF00 = 0x0200000000 → decode c (.t40 w) = .ok (.loadByte addr byte)) ∧
    (w &&& 0xFF0000FFFF = 0x0300000000 → decode c (.t40 w) = .ok (.readWord addr)) ∧
    (w &&& 0xFF00000000 = 0x0400000000 → decode c (.t40 w) = .ok (.writeWord addr (w.extractLsb' 0 16))) ∧
    (c.portWidth = 8 → w &&& 0xFFFF00FFFF = 0x0800000000 → decode c (.t40 w) = .ok (portInRow c port)) ∧
    (c.portWidth = 8 → w &&& 0xFFFF00FF00 = 0x0900000000 → decode c (.t40 w) = .ok (portOutRow c port byte)) ∧
    (w &&& 0xFFFFFFFF00 = 0x1000000000 → decode c (.t40 w) = .ok (.push byte)) ∧
    (w &&& 0xFFFFFFFFFF = 0x1100000000 → decode c (.t40 w) = .ok .pop) ∧
    (w &&& 0xFFFFFFFFFF = 0x1200000000 → decode c (.t40 w) = .ok .hasPending) ∧
    (w &&& 0xFFFFF0FFFF = 0x1800000000 → decode c (.t40 w) = .ok (.latchSet field bit)) ∧
    (w &&& 0xFFFFF0FFFF = 0x1900000000 → decode c (.t40 w) = .ok (.latchClear field bit))

/-- R77: for all parameters that satisfy R6, whatever `PORT_WIDTH` they give, a `port_in` word reaches the device whose port number
it names, and `IN.UNK` for every other number of `PORT_WIDTH` bits; a number of more bits is invalid (R74). -/
def Obligations.PortReadReachesItsDevice : Prop :=
  ∀ c : Params, c.Valid →
    let row := fun p : Port => decode c (.t40 (t40 0x08 p 0))
    row c.portInA = .ok .inA ∧ row c.portInB = .ok .inB ∧ row c.portShiftRead = .ok .inShift ∧
    row c.portWdgR = .ok .inWdg ∧
    ∀ p, (p.toNat < 2 ^ c.portWidth → p ≠ c.portInA → p ≠ c.portInB → p ≠ c.portShiftRead → p ≠ c.portWdgR →
        row p = .ok (.inUnk p)) ∧
      (2 ^ c.portWidth ≤ p.toNat → row p = .error (.mustBeZero 0x08))

/-- R78: the same for `port_out`, decoded separately. -/
def Obligations.PortWriteReachesItsDevice : Prop :=
  ∀ c : Params, c.Valid → ∀ d : Byte,
    let row := fun p : Port => decode c (.t40 (t40 0x09 p (inField d)))
    row c.portShiftOffset = .ok (.outOffset d) ∧ row c.portShiftData = .ok (.outData d) ∧
    row c.portWdgW = .ok (.outWdg d) ∧
    ∀ p, (p.toNat < 2 ^ c.portWidth → p ≠ c.portShiftOffset → p ≠ c.portShiftData → p ≠ c.portWdgW →
        row p = .ok (.outUnk p d)) ∧
      (2 ^ c.portWidth ≤ p.toNat → row p = .error (.mustBeZero 0x09))

/-! ## Steps and the agents -/

/-- A step runs the decoded transaction: where the next request is a word that decodes to `i`, and the run admits it, the step is
`exec i` of the state with the request taken, no more and no less (the taking changes the holds, `started`, `booted` and
`tickDue` alone, the model's own fields, log entries 8, 9, 30 and 31). -/
def Obligations.StepRunsTheDecodedWord : Prop :=
  ∀ (s : State) (t : Taken) (w : TWord) (i : Instr),
    nextRequest s.holds = some t → t.request = .word w → decode params w = .ok i →
    (isLoad i = true → s.started = false) →
    step s = exec i { s with
      started := s.started || t.agent == some .engine
      booted := bootedAfter s.booted t.agent
      tickDue := tickDueAfter s.tickDue t.agent
      holds := resume t.agent (nextStage t.stage) t.more t.rest }

/-- The same for a transaction given by name, the way a pseudo-transaction is issued (log entry 4); an ill-formed one is refused. -/
def Obligations.StepRunsTheNamedTransaction : Prop :=
  ∀ (s : State) (t : Taken) (i : Instr),
    nextRequest s.holds = some t → t.request = .named i →
    (WellFormed i → (isLoad i = true → s.started = false) → step s = exec i (s.take t)) ∧
    (¬ WellFormed i → step s = .refused .illFormed)

/-- R74, R80: a word whose `op` R72 does not list is refused by name; a word whose `op` it lists and whose must-be-zero bits
(R73's masks) are not zero is refused by name; no next state is made. -/
def Obligations.InvalidWordIsRefused : Prop :=
  ∀ (s : State) (t : Taken) (w : BitVec 40), nextRequest s.holds = some t → t.request = .word (.t40 w) →
    let op := w.extractLsb' 32 8
    let table : List (BitVec 8 × BitVec 40) := [(0x00, 0x000000FFFF), (0x01, 0x000000FF00), (0x02, 0x000000FF00),
      (0x03, 0x000000FFFF), (0x04, 0), (0x08, 0x00FF00FFFF), (0x09, 0x00FF00FF00), (0x10, 0x00FFFFFF00),
      (0x11, 0x00FFFFFFFF), (0x12, 0x00FFFFFFFF), (0x18, 0x00FFF0FFFF), (0x19, 0x00FFF0FFFF)]
    (op ∉ table.map Prod.fst → step s = .refused (.invalidWord (.reservedOp op))) ∧
    (∀ mbz, (op, mbz) ∈ table → w &&& mbz ≠ 0 → step s = .refused (.invalidWord (.mustBeZero op)))

/-- R184: a load once the engine has started is refused, whatever form it is issued in (the record of the start is the model's own,
log entry 8). -/
def Obligations.LoadAfterStartIsRefused : Prop :=
  ∀ (s : State) (t : Taken) (i : Instr), nextRequest s.holds = some t → instrOf t.request = .ok i →
    isLoad i = true → s.started = true → step s = .refused .loadAfterStart

/-- R160, R161: the engine's poll. It is answered like `has_pending`; where a vector is pending, the engine's enable condition
holds and its step has not popped yet, the same hold's next request is one `pop`, which returns the oldest vector, and the
service transactions follow; otherwise no `pop` is issued and the vector stays queued (D13; the form of the poll is the
model's own, log entry 18). -/
def Obligations.PollIssuesOnePopWhenPendingAndEnabled : Prop :=
  ∀ (s : State) (t : Taken) (enabled : Bool) (service : List Instr), nextRequest s.holds = some t →
    t.request = .poll enabled service →
    ∃ u, step s = .next u ∧ u.toBlock = s.toBlock ∧ u.response = .bit (s.iq ≠ []) ∧ u.diag = none ∧
      (enabled = true → s.iq ≠ [] → t.stage = .fresh ∨ t.stage = .begun →
        let after := service.map (fun i => (t.agent, Request.named i)) ++ (flat s.holds).tail
        flat u.holds = (t.agent, .named .pop) :: after ∧
        ∃ v vs x, s.iq = v :: vs ∧ step u = .next x ∧ x.iq = vs ∧ x.response = .byte v ∧ flat x.holds = after) ∧
      (enabled = false ∨ s.iq = [] ∨ t.stage = .popDue ∨ t.stage = .served → flat u.holds = (flat s.holds).tail)

/-- R51, R52: requests are taken one at a time in the one total order. A step with nothing to take changes nothing; every other
step that answers consumes exactly the first request, and only a poll puts anything (its `pop` and the service of the vector) in
front of the rest (how the order is held is the model's own, log entries 9 and 18). -/
def Obligations.RequestsAreTakenInTheTotalOrder : Prop :=
  ∀ s t : State, step s = .next t →
    (flat s.holds = [] → t = s) ∧
    (∀ x xs, flat s.holds = x :: xs → flat t.holds = xs ∨
      ∃ e service, x.2 = .poll e service ∧
        flat t.holds = (x.1, .named .pop) :: (service.map (fun i => (x.1, Request.named i)) ++ xs))

/-! ## The memory space -/

/-- R40, R75, R76: the ranges of R40, the bit chain of R76 and the seven patterns of R75 are one decode: for every address the
row whose pattern it matches is answered with the store and index of R40 (that it is answered is the model's own, log entry 10). -/
def Obligations.AddressDecodersAgree : Prop :=
  ∀ (a : Addr) (s : State),
    region a = regionChain a ∧
    exec (decodeA16 a) s = .next (s.answer (.place (region a).1 (region a).2)) ∧
    (region a).2 < storeSize (region a).1

/-- R41: the decoder is total and pure. Every address resolves to one byte inside one store, and a memory read of any address
answers a value and changes no state. -/
def Obligations.MemoryReadsAreTotalAndPure : Prop :=
  ∀ (a : Addr) (s : State), (region a).2 < storeSize (region a).1 ∧
    (∃ v, exec (.readByte a) s = .next (s.answer (.byte v))) ∧ ∃ w, exec (.readWord a) s = .next (s.answer (.word w))

/-- R75: what each of the seven address-decode rows answers, for every value of its free bits (the answer is the model's own,
log entry 10); nothing else changes (R41). -/
def Obligations.ViewRowsAnswerStoreAndIndex : Prop :=
  ∀ s : State,
    (∀ x, exec (.viewProg x) s = .next (s.answer (.place .PROG x.toNat))) ∧
    (∀ x, exec (.viewWram x) s = .next (s.answer (.place .WRAM x.toNat))) ∧
    (∀ x, exec (.viewVram0 x) s = .next (s.answer (.place .VRAM x.toNat))) ∧
    (∀ x, exec (.viewVram1 x) s = .next (s.answer (.place .VRAM (0x400 + x.toNat)))) ∧
    (∀ x, exec (.viewVram2 x) s = .next (s.answer (.place .VRAM (0xC00 + x.toNat)))) ∧
    (∀ x, exec (.viewMirror0 x) s = .next (s.answer (.place .WRAM (x.toNat % 0x400)))) ∧
    (∀ x, exec (.viewMirror1 x) s = .next (s.answer (.place .WRAM (x.toNat % 0x400))))

/-- R42: which addresses name the same byte. A WRAM byte has exactly the 49 addresses listed, every other byte one. -/
def Obligations.AliasesOfAByte : Prop :=
  ∀ a : Addr,
    (∀ i, i < 0x400 → (region a = (.WRAM, i) ↔
      a.toNat = 0x2000 + i ∨ ∃ j, j < 48 ∧ a.toNat = 0x4000 + i + 0x400 * j)) ∧
    (∀ i, i < 0x2000 → (region a = (.PROG, i) ↔ a.toNat = i)) ∧
    (∀ i, i < 0x1C00 → (region a = (.VRAM, i) ↔ a.toNat = 0x2400 + i))

/-- R90: a `read_byte`, from its word on, answers for every address the byte of the view's store (R40), and changes nothing; it is
the engine's. -/
def Obligations.ReadByteAnswersTheByte : Prop :=
  ∀ (s : State) (a : Addr), decode params (.t40 (t40 0x00 a 0)) = .ok (.readByte a) ∧
    mayIssue .engine (.readByte a) = true ∧ exec (.readByte a) s = .next (s.answer (.byte
    (if a.toNat ≤ 0x1FFF then Memory.read s.prog a.toNat
     else if a.toNat ≤ 0x23FF then Memory.read s.wram (a.toNat - 0x2000)
     else if a.toNat ≤ 0x3FFF then Memory.read s.vram (a.toNat - 0x2400)
     else Memory.read s.wram ((a.toNat - 0x4000) % 0x400))))

/-- R43: the write policy by view, row by row of its table: what `read_byte`, `write_byte` and `load_byte` do in the program view
(the run-time write is dropped), in working memory, in video memory and in the mirror view (index `a[9:0]`). -/
def Obligations.AccessPolicyByView : Prop :=
  ∀ (s : State) (a : Addr) (v : Byte),
    (a.toNat ≤ 0x1FFF →
      exec (.readByte a) s = .next (s.answer (.byte (Memory.read s.prog a.toNat))) ∧
      exec (.writeByte a v) s = .next (s.answer .silent) ∧
      exec (.loadByte a v) s = .next { s with prog := Memory.write s.prog a.toNat v, response := .silent, diag := none }) ∧
    (0x2000 ≤ a.toNat → a.toNat ≤ 0x23FF →
      exec (.readByte a) s = .next (s.answer (.byte (Memory.read s.wram (a.toNat - 0x2000)))) ∧
      ∀ i, i = .writeByte a v ∨ i = .loadByte a v → exec i s =
        .next { s with wram := Memory.write s.wram (a.toNat - 0x2000) v, response := .silent, diag := none }) ∧
    (0x2400 ≤ a.toNat → a.toNat ≤ 0x3FFF →
      exec (.readByte a) s = .next (s.answer (.byte (Memory.read s.vram (a.toNat - 0x2400)))) ∧
      ∀ i, i = .writeByte a v ∨ i = .loadByte a v → exec i s =
        .next { s with vram := Memory.write s.vram (a.toNat - 0x2400) v, response := .silent, diag := none }) ∧
    (0x4000 ≤ a.toNat →
      exec (.readByte a) s = .next (s.answer (.byte (Memory.read s.wram (a.toNat % 0x400)))) ∧
      ∀ i, i = .writeByte a v ∨ i = .loadByte a v → exec i s =
        .next { s with wram := Memory.write s.wram (a.toNat % 0x400) v, response := .silent, diag := none })

/-- R44, R45, R93: `read_word` answers the two bytes that `read_byte` answers at `addr` and at the address after it modulo
0x10000 (the wrap is decision D8, log entry 6), the second in bits 15:8. -/
def Obligations.ReadWordIsTwoReadBytes : Prop :=
  ∀ (s : State) (a : Addr), ∃ (lo hi : Byte) (w : Word16), w.toNat = hi.toNat * 0x100 + lo.toNat ∧
    exec (.readByte a) s = .next (s.answer (.byte lo)) ∧
    exec (.readByte (BitVec.ofNat 16 ((a.toNat + 1) % 0x10000))) s = .next (s.answer (.byte hi)) ∧
    exec (.readWord a) s = .next (s.answer (.word w))

/-- R44, R45, R94: `write_word` is `write_byte` of bits 7:0 at `addr` and then of bits 15:8 at the address after it modulo
0x10000 (D8, log entry 6), so each byte is stored or dropped by its own view. -/
def Obligations.WriteWordIsTwoWriteBytes : Prop :=
  ∀ (s : State) (a : Addr) (w : Word16), ∃ t u,
    exec (.writeByte a (w.extractLsb' 0 8)) s = .next t ∧
    exec (.writeByte (BitVec.ofNat 16 ((a.toNat + 1) % 0x10000)) (w.extractLsb' 8 8)) t = .next u ∧
    exec (.writeWord a w) s = .next u

/-- R97: write then read. After `write_byte a, v` every address of the same byte reads `v` when `a` is in 0x2000 to 0xFFFF, and
what it read before when `a` is in the program view; after `load_byte a, v` every address of the byte reads `v`; every
address of another byte reads as before either way. The premise is the invariant `StoresOk`. -/
def Obligations.WriteThenRead : Prop :=
  ∀ (s : State) (a : Addr) (v : Byte), StoresOk s →
    (∃ t, exec (.writeByte a v) s = .next t ∧ ∀ b,
      (region b = region a → 0x2000 ≤ a.toNat → exec (.readByte b) t = .next (t.answer (.byte v))) ∧
      (region b ≠ region a ∨ a.toNat ≤ 0x1FFF →
        exec (.readByte b) t = .next (t.answer (.byte (memRead s b))))) ∧
    (∃ t, exec (.loadByte a v) s = .next t ∧ ∀ b,
      (region b = region a → exec (.readByte b) t = .next (t.answer (.byte v))) ∧
      (region b ≠ region a → exec (.readByte b) t = .next (t.answer (.byte (memRead s b)))))

/-- R98: after `write_word a, w` with both addresses outside the program view, `read_word a` answers `w`, and the two
`read_byte`s its two halves. -/
def Obligations.WordAndByteViewsAgree : Prop :=
  ∀ (s : State) (a : Addr) (w : Word16), StoresOk s → 0x2000 ≤ a.toNat → 0x2000 ≤ (a + 1).toNat →
    ∃ t, exec (.writeWord a w) s = .next t ∧ exec (.readWord a) t = .next (t.answer (.word w)) ∧
      exec (.readByte a) t = .next (t.answer (.byte (w.extractLsb' 0 8))) ∧
      exec (.readByte (a + 1)) t = .next (t.answer (.byte (w.extractLsb' 8 8)))

/-- R83, R95, R96, R143, R183: each pseudo-transaction leaves the block as its expansion does, one transaction after the other. -/
def Obligations.PseudoTransactionIsItsExpansion : Prop :=
  ∀ (s : State) (i : Instr),
    (∃ base bytes, i = .loadImage base bytes) ∨ (∃ b0 b1 b2 b3, i = .loadRom b0 b1 b2 b3) ∨ i = .frameScan ∨
      (∃ n, i = .press n) ∨ (∃ n, i = .release n) →
    ∃ t u, exec i s = .next t ∧ execAll (expand params i) s = .next u ∧ t.toBlock = u.toBlock

/-- R95: `load_image` with no byte changes nothing; with a first byte it is `load_byte` of it at `base` and then `load_image` of
the rest at the address after it modulo 0x10000 (D8, log entry 6). -/
def Obligations.LoadImageLoadsByteByByte : Prop :=
  ∀ (s : State) (base : Addr),
    exec (.loadImage base []) s = .next (s.answer .silent) ∧
    ∀ v vs, ∃ t u, exec (.loadByte base v) s = .next t ∧
      exec (.loadImage (BitVec.ofNat 16 ((base.toNat + 1) % 0x10000)) vs) t = .next u ∧
      exec (.loadImage base (v :: vs)) s = .next u

/-- R183: after `load_rom` of four blocks of 2048 bytes, byte `i` of block `j` is read back at `0x800 * j + i`, and working and
video memory are untouched. -/
def Obligations.LoadRomPlacesTheBlocks : Prop :=
  ∀ (s : State) (b : Fin 4 → List Byte), StoresOk s → (∀ j, (b j).length = 2048) →
    ∃ t, exec (.loadRom (b 0) (b 1) (b 2) (b 3)) s = .next t ∧ t.wram = s.wram ∧ t.vram = s.vram ∧
      ∀ (j : Fin 4) (i : Nat) (h : i < (b j).length),
        exec (.readByte (BitVec.ofNat 16 (0x800 * j.val + i))) t = .next (t.answer (.byte (b j)[i]))

/-- R96: `frame_scan` answers the 7168 bytes `VRAM[0]` to `VRAM[0x1BFF]` and changes nothing. -/
def Obligations.FrameScanAnswersVideoMemory : Prop :=
  ∀ s : State, exec .frameScan s =
    .next (s.answer (.bytes ((List.range 7168).map fun k => Memory.read s.vram k)))

/-! ## The ports and the shift register -/

/-- R111: a read of input port A, from its word on, answers `STATUS_A | LA` and clears the coin bit of `LA` alone. -/
def Obligations.InputPortAClearsTheCoinBit : Prop :=
  decode params (.t40 (t40 0x08 params.portInA 0)) = .ok .inA ∧
  ∀ s : State, exec .inA s = .next { s with
    la := s.la &&& ~~~params.coinMask, response := .byte (params.statusA ||| s.la), diag := none }

/-- R112: a read of input port B, from its word on, answers `STATUS_B | LB` and changes nothing. -/
def Obligations.InputPortBChangesNothing : Prop :=
  decode params (.t40 (t40 0x08 params.portInB 0)) = .ok .inB ∧
  ∀ s : State, exec .inB s = .next (s.answer (.byte (params.statusB ||| s.lb)))

/-- R113: the shift read answers bits `15 - SO` down to `8 - SO` of `SR` (`SHIFT_ANCHOR` = 8, D1, log entry 13) and changes
nothing. -/
def Obligations.ShiftReadAnswersTheWindow : Prop :=
  ∀ s : State, ∃ w : Byte, exec .inShift s = .next (s.answer (.byte w)) ∧
    ∀ j, j < 8 → w.getLsbD j = s.sr.getLsbD (8 - s.so.toNat + j)

/-- R121: with `SHIFT_ANCHOR` = 8 the three forms of the shift read are equal for every `SR` and `SO`, and the shift count is in
1 to 8; the load loses nothing but the old low byte. -/
def Obligations.ShiftReadFormsAgree : Prop :=
  ∀ (c : Params) (sr : BitVec 16) (so : BitVec 3), c.shiftAnchor = 8 →
    shiftWindow c sr so = (sr >>> (8 - so.toNat)).setWidth 8 ∧
    shiftWindow c sr so = ((sr.setWidth 32 <<< so.toNat) >>> 8).setWidth 8 ∧
    shiftWindow c sr so = sr.extractLsb' (8 - so.toNat) 8 ∧
    1 ≤ 8 - so.toNat ∧ 8 - so.toNat ≤ 8 ∧
    ∀ d : Byte, (shiftLoad sr d).toNat = d.toNat * 256 + sr.toNat / 256

/-- R114: a watchdog read answers some byte, of which nothing is said, and changes no item of the block (the count of draws is the
model's own, log entry 5). -/
def Obligations.WatchdogReadAnswersSomeByte : Prop :=
  ∀ s : State, ∃ v : Byte, exec .inWdg s =
    .next { s with draws := s.draws + 1, response := .byte v, diag := none }

/-- R115, R119, R120, from their words on: an unrecognised read answers 0xFF and emits a diagnostic, an unrecognised write emits one,
a watchdog write emits none; none of them changes state. -/
def Obligations.UnrecognisedPortsAndWatchdogWrite : Prop :=
  ∀ (s : State) (p : Port) (d : Byte),
    (p.toNat < 2 ^ params.portWidth → p ∉ [params.portInA, params.portInB, params.portShiftRead, params.portWdgR] →
      decode params (.t40 (t40 0x08 p 0)) = .ok (.inUnk p)) ∧
    exec (.inUnk p) s = .next { s with response := .byte 0xFF, diag := some (.unknownIn p) } ∧
    (p.toNat < 2 ^ params.portWidth → p ∉ [params.portShiftOffset, params.portShiftData, params.portWdgW] →
      decode params (.t40 (t40 0x09 p (inField d))) = .ok (.outUnk p d)) ∧
    exec (.outUnk p d) s = .next { s with response := .silent, diag := some (.unknownOut p d) } ∧
    decode params (.t40 (t40 0x09 params.portWdgW (inField d))) = .ok (.outWdg d) ∧
    exec (.outWdg d) s = .next { s with response := .silent, diag := none }

/-- R117: a write to the shift-offset port, from its word on, keeps the low 3 bits of the byte in `SO`; `SR` is not changed. -/
def Obligations.OffsetWriteKeepsThreeBits : Prop :=
  ∀ (s : State) (d : Byte),
    decode params (.t40 (t40 0x09 params.portShiftOffset (inField d))) = .ok (.outOffset d) ∧
    ∃ so : BitVec 3, so.toNat = d.toNat % 8 ∧
      exec (.outOffset d) s = .next { s with so := so, response := .silent, diag := none }

/-- R118: a write to the shift-data port, from its word on, puts the byte in bits 15:8 and the old bits 15:8 in bits 7:0; `SO` is
not changed. -/
def Obligations.DataWriteShiftsTheHighByteDown : Prop :=
  ∀ (s : State) (d : Byte),
    decode params (.t40 (t40 0x09 params.portShiftData (inField d))) = .ok (.outData d) ∧
    ∃ sr : BitVec 16, sr.toNat = d.toNat * 256 + s.sr.toNat / 256 ∧
      exec (.outData d) s = .next { s with sr := sr, response := .silent, diag := none }

/-- R122: the two-load property. After any transactions at all, among which the last byte written to the offset port is `o` and the
last two written to the data port are `b1` and then `b2`, wherever the offset write stands, the read answers the window of
`{b2, b1}` that `o` selects, whatever the registers held before. -/
def Obligations.TwoLoadsThenRead : Prop :=
  ∀ (is : List Instr) (s t : State) (os bs : List Byte) (o b1 b2 : Byte),
    execAll is s = .next t → offsetWrites is = os ++ [o] → dataWrites is = bs ++ [b1, b2] →
    exec .inShift t = .next (t.answer (.byte
      (BitVec.ofNat 8 ((b2.toNat * 256 + b1.toNat) / 2 ^ (params.shiftAnchor - o.toNat % 8)))))

/-! ## The interrupt queue and the interrupt source -/

/-- R130: `push` appends at the tail (the queue of the model's parameters is unbounded, R135). -/
def Obligations.PushAppends : Prop :=
  ∀ (s : State) (v : Byte), exec (.push v) s = .next { s with iq := s.iq ++ [v], response := .silent, diag := none }

/-- R131: `has_pending`, from its word on, answers whether the queue holds a vector and changes nothing; it is the engine's. -/
def Obligations.HasPendingAnswersNonEmptiness : Prop :=
  decode params (.t40 0x1200000000) = .ok .hasPending ∧ issuers .hasPending = [.engine] ∧
  ∀ s : State, exec .hasPending s = .next (s.answer (.bit (decide (s.iq ≠ []))))

/-- R132: `pop` of a queue that is not empty removes the oldest vector and answers it. -/
def Obligations.PopReturnsTheOldest : Prop :=
  ∀ (s : State) (v : Byte) (vs : List Byte), s.iq = v :: vs →
    exec .pop s = .next { s with iq := vs, response := .byte v, diag := none }

/-- R133: `pop` of an empty queue is the defect: a fault, with no response and no next state (D11, log entry 17). -/
def Obligations.PopOfEmptyFaults : Prop :=
  ∀ s : State, s.iq = [] → exec .pop s = .fault .popEmpty

/-- R135: where a finite `QUEUE_DEPTH` is configured, a push onto a queue that holds that many vectors is refused and any other
succeeds; where none is, every push succeeds. -/
def Obligations.FiniteQueueRefusesWhenFull : Prop :=
  ∀ (c : Params) (s : State) (v : Byte),
    (c.queueDepth = none → pushVectors c s [v] = .next { s with iq := s.iq ++ [v] }) ∧
    (∀ n, c.queueDepth = some n → n ≤ s.iq.length → pushVectors c s [v] = .refused .queueFull) ∧
    (∀ n, c.queueDepth = some n → s.iq.length < n → pushVectors c s [v] = .next { s with iq := s.iq ++ [v] })

/-- R134: first in, first out. Whatever transactions are interleaved, the vectors popped, followed by those still queued, are those
queued at the start followed by those pushed (by `push` and by `tick`); and `k` pushes onto an empty queue followed by `k`
pops return the vectors in order and leave it empty. -/
def Obligations.QueueIsFirstInFirstOut : Prop :=
  (∀ (is : List Instr) (s : State) (r : Trace), execTrace is s = some r → r.popped ++ r.state.iq = s.iq ++ r.pushed) ∧
  (∀ (vs : List Byte) (s : State), s.iq = [] →
    ∃ r, execTrace (vs.map .push ++ List.replicate vs.length .pop) s = some r ∧ r.popped = vs ∧ r.state.iq = [])

/-- R155, R156: `tick n` pushes one vector for each half-frame entered since the last observation, `VEC_TOP` for an even one and
`VEC_MID` for an odd one, oldest first, and remembers `n`; a count below `CYC_PREV` is refused. -/
def Obligations.TickPushesOneVectorPerBoundary : Prop :=
  ∀ (s : State) (n : Count),
    let h0 := s.cycPrev.toNat / params.halfFrameCycles
    let h1 := n.toNat / params.halfFrameCycles
    (s.cycPrev.toNat ≤ n.toNat → exec (.tick n) s = .next { s with
      iq := s.iq ++ (List.range' (h0 + 1) (h1 - h0)).map fun h => if h % 2 = 0 then params.vecTop else params.vecMid
      cycPrev := n, response := .silent, diag := none }) ∧
    (n.toNat < s.cycPrev.toNat → exec (.tick n) s = .refused .countDecreased)

/-- R158: the cadence law, for every sequence of observations with non-decreasing counts: how many vectors are pushed, that they
alternate, which come first when the start is count 0, and that one observation of the last count leaves the same block. -/
def Obligations.CadenceLaw : Prop :=
  ∀ (s : State) (ns : List Count) (last : Count),
    ((s.cycPrev :: ns).map BitVec.toNat).Pairwise (· ≤ ·) → (s.cycPrev :: ns).getLast? = some last →
    ∃ (t u : State) (vs : List Byte), execAll (ns.map .tick) s = .next t ∧ t.iq = s.iq ++ vs ∧ t.cycPrev = last ∧
      vs.length = halfFrame params last - halfFrame params s.cycPrev ∧
      (∀ v ∈ vs, v = params.vecTop ∨ v = params.vecMid) ∧ vs.IsChain (· ≠ ·) ∧
      (s.cycPrev = 0 → ∀ k, 1 ≤ k → k ≤ vs.length →
        vs[k - 1]? = some (if k % 2 = 1 then params.vecMid else params.vecTop)) ∧
      exec (.tick last) s = .next u ∧ u.toBlock = t.toBlock

/-! ## The input latch -/

/-- R140, R141: `latch_set f, i` makes bit `i` of field `f` 1 and `latch_clear f, i` makes it 0, from their words on (`sel[3:3]` 0 for
A and 1 for B, `sel[2:0]` the index); no other bit and no other item changes; they are the presentation unit's. -/
def Obligations.LatchTransactionsChangeOneBit : Prop :=
  ∀ (s : State) (f : LatchField) (i : BitVec 3) (on : Bool),
    let instr : Instr := if on then .latchSet f i else .latchClear f i
    let sel := BitVec.ofNat 16 ((match f with | .A => 0 | .B => 8) + i.toNat)
    decode params (.t40 (t40 (if on then 0x18 else 0x19) sel 0)) = .ok instr ∧ issuers instr = [.presentation] ∧
    ∃ v : Byte,
      exec instr s = .next (match f with
        | .A => { s with la := v, response := .silent, diag := none }
        | .B => { s with lb := v, response := .silent, diag := none }) ∧
      ∀ j, j < 8 → v.getLsbD j = if j = i.toNat then on else (match f with | .A => s.la | .B => s.lb).getLsbD j

/-- R143, R83: `press` and `release` of a named input set and clear the bit `INPUT_MAP` gives it. -/
def Obligations.NamedInputsFollowInputMap : Prop :=
  ∀ (s : State) (n : InputName),
    (∃ t, exec (.press n) s = .next t ∧
      exec (.latchSet (params.inputMap.get n).field (params.inputMap.get n).bit) s = .next t) ∧
    (∃ t, exec (.release n) s = .next t ∧
      exec (.latchClear (params.inputMap.get n).field (params.inputMap.get n).bit) s = .next t)

/-- R144, R59, R187: the coin strobe. One press of the coin is seen as 1 by the next read of input port A and as 0 by the read after
it; two presses before a read are seen as one; a release before the read makes the press invisible; every other bit of
field A is seen by both reads. (A bit is seen where `STATUS_A` does not hide it.) -/
def Obligations.CoinIsSeenByExactlyOneRead : Prop :=
  ∀ s : State, ∃ t u x : State, ∃ r1 r2 : Byte,
    exec (.press .coin) s = .next t ∧ exec .inA t = .next u ∧ exec .inA u = .next x ∧
    u.response = .byte r1 ∧ x.response = .byte r2 ∧
    r1 &&& params.coinMask = params.coinMask ∧ r2 &&& params.coinMask = params.statusA &&& params.coinMask ∧
    r1 &&& ~~~params.coinMask = r2 &&& ~~~params.coinMask ∧
    exec (.press .coin) t = .next t ∧
    ∃ y z, exec (.release .coin) t = .next y ∧ exec .inA y = .next z ∧ z.response = .byte r2

/-! ## The whole machine -/

/-- R29: reset. Every address reads 0x00, every register the document lists is zero, the queue is empty. -/
def Obligations.ResetIsAllZero : Prop :=
  let s := State.reset
  (∀ a, exec (.readByte a) s = .next (s.answer (.byte 0))) ∧
  s.sr = 0 ∧ s.so = 0 ∧ s.la = 0 ∧ s.lb = 0 ∧ s.iq = []

/-- The stores of the reset state are in canonical form and in range. -/
def Obligations.ResetStoresAreCanonical : Prop := StoresOk State.reset

/-- R10, R31 (b), (c): the stores keep their size and their canonical form over every step. -/
def Obligations.StepKeepsTheStoresCanonical : Prop :=
  ∀ s t : State, StoresOk s → step s = .next t → StoresOk t

/-- `CYC_PREV` is 0 at reset (R30, the spec's decision D18, log entry 19), and the queue of the reset state is what `tick` makes
it. -/
def Obligations.ResetQueueIsOfTicks : Prop := State.reset.cycPrev = 0 ∧ QueueOfTicks params State.reset

/-- R31 (d), R136, R158: as long as no `push` comes from elsewhere, whatever a step runs, `IQ` stays equal to the vectors of the
last half-frames entered, as many as it holds: its vectors are neither merged nor reordered, and the newest is that of the
half-frame of `CYC_PREV`. How many a step adds or removes is `TickPushesOneVectorPerBoundary`, `PopReturnsTheOldest` and
`QueueIsFirstInFirstOut`. -/
def Obligations.StepKeepsTheQueueOfTicks : Prop :=
  ∀ s t : State, QueueOfTicks params s →
    (∀ x, nextRequest s.holds = some x → ∀ v, instrOf x.request ≠ .ok (.push v)) →
    step s = .next t → QueueOfTicks params t

/-- R31 (d): for all parameters that satisfy R6, the elements of such a queue are `VEC_TOP` or `VEC_MID` and adjacent ones
differ. -/
def Obligations.QueueOfTicksAlternates : Prop :=
  ∀ (c : Params) (s : State), c.Valid → QueueOfTicks c s →
    (∀ v ∈ s.iq, v = c.vecTop ∨ v = c.vecMid) ∧ s.iq.IsChain (· ≠ ·)

/-- R11, R165, R184: the program store is written only by the load path, and once the engine has started no step changes it, nor
does anything undo the start. -/
def Obligations.StartedBlockKeepsItsProgram : Prop :=
  ∀ s t : State, s.started = true → step s = .next t → t.started = true ∧ t.prog = s.prog

/-- R55, R56, R133, R150, R188: while the agents keep their contract, the block never stops: every step answers a next state, so
`PopEmpty` is not reached and nothing is refused, and the contract is kept by the requests still to come. -/
def Obligations.ConformingAgentsNeverStopTheBlock : Prop :=
  ∀ s : State, Conforming s → ∃ t, step s = .next t ∧ Conforming t

/-- R150, R151, R153: the one fault is `PopEmpty`, raised by a `pop` of an empty queue and by nothing else, and with the model's
parameters the one transaction that is refused is a `tick` whose count is below `CYC_PREV`. -/
def Obligations.OnlyPopAndTickCanStop : Prop :=
  ∀ (s : State) (i : Instr),
    (∀ f, exec i s = .fault f → f = .popEmpty ∧ i = .pop ∧ s.iq = []) ∧
    (∀ r, exec i s = .refused r → r = .countDecreased ∧ ∃ n, i = .tick n ∧ n.toNat < s.cycPrev.toNat)

/-- R26: "No transaction touches state outside its row" of the access matrix: what an instruction leaves unchanged, for all of
them; the holds, the records of the start, of the boot and of the `tick` due and (but for a watchdog read) the count of draws are left alone too. -/
def Obligations.WritesStayInTheAccessMatrix : Prop :=
  ∀ (i : Instr) (s t : State), exec i s = .next t →
    (∀ it, it ∉ mayWrite params i → agreeOn s t it) ∧ t.holds = s.holds ∧ t.started = s.started ∧
    t.booted = s.booted ∧ t.tickDue = s.tickDue ∧ (i ≠ .inWdg → t.draws = s.draws)

/-- R26, the reading side: two states that agree on the items an instruction may read (and on the count of draws) give it the same
kind of outcome, the same response and diagnostic, and the same value in every register it writes. -/
def Obligations.ReadsStayInTheAccessMatrix : Prop :=
  ∀ (i : Instr) (s s' t : State), (∀ it, it ∈ mayRead params i → agreeOn s s' it) → s.draws = s'.draws →
    exec i s = .next t →
    ∃ t', exec i s' = .next t' ∧ t'.response = t.response ∧ t'.diag = t.diag ∧
      ∀ it, it ∈ mayWrite params i → it ∈ registers → agreeOn t t' it

/-- R97, R26: the memory frame of every instruction: every address that does not name a byte the instruction stores to reads as
before. The addresses stored to are those the meaning computes (`storedAddrs`); none, for an instruction that stores nothing. -/
def Obligations.EveryOtherByteIsUnchanged : Prop :=
  ∀ (i : Instr) (s t : State) (b : Addr), StoresOk s → exec i s = .next t →
    (∀ a ∈ storedAddrs i, region a ≠ region b) → memRead t b = memRead s b

/-- R52 (a), R55, R160, R164 (c): while the agents keep their contract, an engine step runs to its end with no other agent's
transaction in it, pops at most one vector, the oldest, pushes none, and leaves its `tick` due; the contract is kept by what
comes after it (that a step is a hold, and the record of the `tick`, are the model's own, log entries 9 and 30). -/
def Obligations.EngineStepRunsWholeAndPopsAtMostOnce : Prop :=
  ∀ (s : State) (h : Hold) (hs : List Hold), s.holds = h :: hs → h.agent = some .engine → h.requests ≠ [] →
    h.stage = .fresh → Conforming s →
    ∃ n u, stepsFrom n s = some u ∧ u.holds = hs ∧ u.tickDue = true ∧ Conforming u ∧
      (u.iq = s.iq ∨ ∃ v, s.iq = v :: u.iq) ∧ u.cycPrev = s.cycPrev ∧
      ∀ k, k < n → ∃ x h', stepsFrom k s = some x ∧ x.holds = h' :: hs ∧ h'.agent = some .engine ∧ h'.requests ≠ []

/-- R56, R156, R160, R164 (d): in an order of holds that keeps the contract, with no `tick` due, the execution unit's turns are
step, `tick`, step, `tick`; each turn of the interrupt source is exactly one `tick`; each poll stands first or last in its
engine step, at an instruction boundary; and (R50 (d), R182) the loader comes before the other three. -/
def Obligations.StepsAndTicksAlternate : Prop :=
  ∀ s : State, Conforming s → s.tickDue = false →
    (∀ k a, (unitTurns s.holds)[k]? = some a → a = if k % 2 = 0 then .engine else .source) ∧
    (∀ (i j : Nat) (h h' : Hold), s.holds[i]? = some h → s.holds[j]? = some h' → h.requests ≠ [] → h'.requests ≠ [] →
      h.agent = some .loader → h'.agent ≠ some .loader → i < j) ∧
    ∀ h ∈ s.holds, h.requests ≠ [] →
      (h.agent = some .source → ∃ r n, h.requests = [r] ∧ instrOf r = .ok (.tick n)) ∧
      (h.agent = some .engine → ∀ k e service, h.requests[k]? = some (.poll e service) → k = 0 ∨ k + 1 = h.requests.length)
end

