-- ==== Sys2Proof/Laws/State.lean ====
section
/-! SUPPORT. One lemma per field per update of the state, each true by `rfl`, so that no later proof unfolds a record update;
then what reading a store or a latch field gives after an update. -/

namespace Sys2Proof.Machine

variable (s : State)

@[simp] theorem State.setSr_prog (v : BitVec 16) : (s.setSr v).prog = s.prog := rfl
@[simp] theorem State.setSr_wram (v : BitVec 16) : (s.setSr v).wram = s.wram := rfl
@[simp] theorem State.setSr_vram (v : BitVec 16) : (s.setSr v).vram = s.vram := rfl
@[simp] theorem State.setSr_sr (v : BitVec 16) : (s.setSr v).sr = v := rfl
@[simp] theorem State.setSr_so (v : BitVec 16) : (s.setSr v).so = s.so := rfl
@[simp] theorem State.setSr_la (v : BitVec 16) : (s.setSr v).la = s.la := rfl
@[simp] theorem State.setSr_lb (v : BitVec 16) : (s.setSr v).lb = s.lb := rfl
@[simp] theorem State.setSr_iq (v : BitVec 16) : (s.setSr v).iq = s.iq := rfl
@[simp] theorem State.setSr_cycPrev (v : BitVec 16) : (s.setSr v).cycPrev = s.cycPrev := rfl
@[simp] theorem State.setSr_response (v : BitVec 16) : (s.setSr v).response = s.response := rfl
@[simp] theorem State.setSr_diag (v : BitVec 16) : (s.setSr v).diag = s.diag := rfl
@[simp] theorem State.setSr_draws (v : BitVec 16) : (s.setSr v).draws = s.draws := rfl
@[simp] theorem State.setSr_started (v : BitVec 16) : (s.setSr v).started = s.started := rfl
@[simp] theorem State.setSr_booted (v : BitVec 16) : (s.setSr v).booted = s.booted := rfl
@[simp] theorem State.setSr_tickDue (v : BitVec 16) : (s.setSr v).tickDue = s.tickDue := rfl
@[simp] theorem State.setSr_holds (v : BitVec 16) : (s.setSr v).holds = s.holds := rfl

@[simp] theorem State.setSo_prog (v : BitVec 3) : (s.setSo v).prog = s.prog := rfl
@[simp] theorem State.setSo_wram (v : BitVec 3) : (s.setSo v).wram = s.wram := rfl
@[simp] theorem State.setSo_vram (v : BitVec 3) : (s.setSo v).vram = s.vram := rfl
@[simp] theorem State.setSo_sr (v : BitVec 3) : (s.setSo v).sr = s.sr := rfl
@[simp] theorem State.setSo_so (v : BitVec 3) : (s.setSo v).so = v := rfl
@[simp] theorem State.setSo_la (v : BitVec 3) : (s.setSo v).la = s.la := rfl
@[simp] theorem State.setSo_lb (v : BitVec 3) : (s.setSo v).lb = s.lb := rfl
@[simp] theorem State.setSo_iq (v : BitVec 3) : (s.setSo v).iq = s.iq := rfl
@[simp] theorem State.setSo_cycPrev (v : BitVec 3) : (s.setSo v).cycPrev = s.cycPrev := rfl
@[simp] theorem State.setSo_response (v : BitVec 3) : (s.setSo v).response = s.response := rfl
@[simp] theorem State.setSo_diag (v : BitVec 3) : (s.setSo v).diag = s.diag := rfl
@[simp] theorem State.setSo_draws (v : BitVec 3) : (s.setSo v).draws = s.draws := rfl
@[simp] theorem State.setSo_started (v : BitVec 3) : (s.setSo v).started = s.started := rfl
@[simp] theorem State.setSo_booted (v : BitVec 3) : (s.setSo v).booted = s.booted := rfl
@[simp] theorem State.setSo_tickDue (v : BitVec 3) : (s.setSo v).tickDue = s.tickDue := rfl
@[simp] theorem State.setSo_holds (v : BitVec 3) : (s.setSo v).holds = s.holds := rfl

@[simp] theorem State.setIq_prog (vs : List Byte) : (s.setIq vs).prog = s.prog := rfl
@[simp] theorem State.setIq_wram (vs : List Byte) : (s.setIq vs).wram = s.wram := rfl
@[simp] theorem State.setIq_vram (vs : List Byte) : (s.setIq vs).vram = s.vram := rfl
@[simp] theorem State.setIq_sr (vs : List Byte) : (s.setIq vs).sr = s.sr := rfl
@[simp] theorem State.setIq_so (vs : List Byte) : (s.setIq vs).so = s.so := rfl
@[simp] theorem State.setIq_la (vs : List Byte) : (s.setIq vs).la = s.la := rfl
@[simp] theorem State.setIq_lb (vs : List Byte) : (s.setIq vs).lb = s.lb := rfl
@[simp] theorem State.setIq_iq (vs : List Byte) : (s.setIq vs).iq = vs := rfl
@[simp] theorem State.setIq_cycPrev (vs : List Byte) : (s.setIq vs).cycPrev = s.cycPrev := rfl
@[simp] theorem State.setIq_response (vs : List Byte) : (s.setIq vs).response = s.response := rfl
@[simp] theorem State.setIq_diag (vs : List Byte) : (s.setIq vs).diag = s.diag := rfl
@[simp] theorem State.setIq_draws (vs : List Byte) : (s.setIq vs).draws = s.draws := rfl
@[simp] theorem State.setIq_started (vs : List Byte) : (s.setIq vs).started = s.started := rfl
@[simp] theorem State.setIq_booted (vs : List Byte) : (s.setIq vs).booted = s.booted := rfl
@[simp] theorem State.setIq_tickDue (vs : List Byte) : (s.setIq vs).tickDue = s.tickDue := rfl
@[simp] theorem State.setIq_holds (vs : List Byte) : (s.setIq vs).holds = s.holds := rfl

@[simp] theorem State.setCycPrev_prog (n : Count) : (s.setCycPrev n).prog = s.prog := rfl
@[simp] theorem State.setCycPrev_wram (n : Count) : (s.setCycPrev n).wram = s.wram := rfl
@[simp] theorem State.setCycPrev_vram (n : Count) : (s.setCycPrev n).vram = s.vram := rfl
@[simp] theorem State.setCycPrev_sr (n : Count) : (s.setCycPrev n).sr = s.sr := rfl
@[simp] theorem State.setCycPrev_so (n : Count) : (s.setCycPrev n).so = s.so := rfl
@[simp] theorem State.setCycPrev_la (n : Count) : (s.setCycPrev n).la = s.la := rfl
@[simp] theorem State.setCycPrev_lb (n : Count) : (s.setCycPrev n).lb = s.lb := rfl
@[simp] theorem State.setCycPrev_iq (n : Count) : (s.setCycPrev n).iq = s.iq := rfl
@[simp] theorem State.setCycPrev_cycPrev (n : Count) : (s.setCycPrev n).cycPrev = n := rfl
@[simp] theorem State.setCycPrev_response (n : Count) : (s.setCycPrev n).response = s.response := rfl
@[simp] theorem State.setCycPrev_diag (n : Count) : (s.setCycPrev n).diag = s.diag := rfl
@[simp] theorem State.setCycPrev_draws (n : Count) : (s.setCycPrev n).draws = s.draws := rfl
@[simp] theorem State.setCycPrev_started (n : Count) : (s.setCycPrev n).started = s.started := rfl
@[simp] theorem State.setCycPrev_booted (n : Count) : (s.setCycPrev n).booted = s.booted := rfl
@[simp] theorem State.setCycPrev_tickDue (n : Count) : (s.setCycPrev n).tickDue = s.tickDue := rfl
@[simp] theorem State.setCycPrev_holds (n : Count) : (s.setCycPrev n).holds = s.holds := rfl

@[simp] theorem State.answer_prog (r : Response) : (s.answer r).prog = s.prog := rfl
@[simp] theorem State.answer_wram (r : Response) : (s.answer r).wram = s.wram := rfl
@[simp] theorem State.answer_vram (r : Response) : (s.answer r).vram = s.vram := rfl
@[simp] theorem State.answer_sr (r : Response) : (s.answer r).sr = s.sr := rfl
@[simp] theorem State.answer_so (r : Response) : (s.answer r).so = s.so := rfl
@[simp] theorem State.answer_la (r : Response) : (s.answer r).la = s.la := rfl
@[simp] theorem State.answer_lb (r : Response) : (s.answer r).lb = s.lb := rfl
@[simp] theorem State.answer_iq (r : Response) : (s.answer r).iq = s.iq := rfl
@[simp] theorem State.answer_cycPrev (r : Response) : (s.answer r).cycPrev = s.cycPrev := rfl
@[simp] theorem State.answer_response (r : Response) : (s.answer r).response = r := rfl
@[simp] theorem State.answer_diag (r : Response) : (s.answer r).diag = none := rfl
@[simp] theorem State.answer_draws (r : Response) : (s.answer r).draws = s.draws := rfl
@[simp] theorem State.answer_started (r : Response) : (s.answer r).started = s.started := rfl
@[simp] theorem State.answer_booted (r : Response) : (s.answer r).booted = s.booted := rfl
@[simp] theorem State.answer_tickDue (r : Response) : (s.answer r).tickDue = s.tickDue := rfl
@[simp] theorem State.answer_holds (r : Response) : (s.answer r).holds = s.holds := rfl

@[simp] theorem State.report_prog (r : Response) (d : Diag) : (s.report r d).prog = s.prog := rfl
@[simp] theorem State.report_wram (r : Response) (d : Diag) : (s.report r d).wram = s.wram := rfl
@[simp] theorem State.report_vram (r : Response) (d : Diag) : (s.report r d).vram = s.vram := rfl
@[simp] theorem State.report_sr (r : Response) (d : Diag) : (s.report r d).sr = s.sr := rfl
@[simp] theorem State.report_so (r : Response) (d : Diag) : (s.report r d).so = s.so := rfl
@[simp] theorem State.report_la (r : Response) (d : Diag) : (s.report r d).la = s.la := rfl
@[simp] theorem State.report_lb (r : Response) (d : Diag) : (s.report r d).lb = s.lb := rfl
@[simp] theorem State.report_iq (r : Response) (d : Diag) : (s.report r d).iq = s.iq := rfl
@[simp] theorem State.report_cycPrev (r : Response) (d : Diag) : (s.report r d).cycPrev = s.cycPrev := rfl
@[simp] theorem State.report_response (r : Response) (d : Diag) : (s.report r d).response = r := rfl
@[simp] theorem State.report_diag (r : Response) (d : Diag) : (s.report r d).diag = some d := rfl
@[simp] theorem State.report_draws (r : Response) (d : Diag) : (s.report r d).draws = s.draws := rfl
@[simp] theorem State.report_started (r : Response) (d : Diag) : (s.report r d).started = s.started := rfl
@[simp] theorem State.report_booted (r : Response) (d : Diag) : (s.report r d).booted = s.booted := rfl
@[simp] theorem State.report_tickDue (r : Response) (d : Diag) : (s.report r d).tickDue = s.tickDue := rfl
@[simp] theorem State.report_holds (r : Response) (d : Diag) : (s.report r d).holds = s.holds := rfl

@[simp] theorem State.countDraw_prog : (s.countDraw).prog = s.prog := rfl
@[simp] theorem State.countDraw_wram : (s.countDraw).wram = s.wram := rfl
@[simp] theorem State.countDraw_vram : (s.countDraw).vram = s.vram := rfl
@[simp] theorem State.countDraw_sr : (s.countDraw).sr = s.sr := rfl
@[simp] theorem State.countDraw_so : (s.countDraw).so = s.so := rfl
@[simp] theorem State.countDraw_la : (s.countDraw).la = s.la := rfl
@[simp] theorem State.countDraw_lb : (s.countDraw).lb = s.lb := rfl
@[simp] theorem State.countDraw_iq : (s.countDraw).iq = s.iq := rfl
@[simp] theorem State.countDraw_cycPrev : (s.countDraw).cycPrev = s.cycPrev := rfl
@[simp] theorem State.countDraw_response : (s.countDraw).response = s.response := rfl
@[simp] theorem State.countDraw_diag : (s.countDraw).diag = s.diag := rfl
@[simp] theorem State.countDraw_draws : (s.countDraw).draws = s.draws + 1 := rfl
@[simp] theorem State.countDraw_started : (s.countDraw).started = s.started := rfl
@[simp] theorem State.countDraw_booted : (s.countDraw).booted = s.booted := rfl
@[simp] theorem State.countDraw_tickDue : (s.countDraw).tickDue = s.tickDue := rfl
@[simp] theorem State.countDraw_holds : (s.countDraw).holds = s.holds := rfl

@[simp] theorem State.take_prog (t : Taken) : (s.take t).prog = s.prog := rfl
@[simp] theorem State.take_wram (t : Taken) : (s.take t).wram = s.wram := rfl
@[simp] theorem State.take_vram (t : Taken) : (s.take t).vram = s.vram := rfl
@[simp] theorem State.take_sr (t : Taken) : (s.take t).sr = s.sr := rfl
@[simp] theorem State.take_so (t : Taken) : (s.take t).so = s.so := rfl
@[simp] theorem State.take_la (t : Taken) : (s.take t).la = s.la := rfl
@[simp] theorem State.take_lb (t : Taken) : (s.take t).lb = s.lb := rfl
@[simp] theorem State.take_iq (t : Taken) : (s.take t).iq = s.iq := rfl
@[simp] theorem State.take_cycPrev (t : Taken) : (s.take t).cycPrev = s.cycPrev := rfl
@[simp] theorem State.take_response (t : Taken) : (s.take t).response = s.response := rfl
@[simp] theorem State.take_diag (t : Taken) : (s.take t).diag = s.diag := rfl
@[simp] theorem State.take_draws (t : Taken) : (s.take t).draws = s.draws := rfl
@[simp] theorem State.take_started (t : Taken) : (s.take t).started = (s.started || t.agent == some .engine) := rfl
@[simp] theorem State.take_booted (t : Taken) : (s.take t).booted = bootedAfter s.booted t.agent := rfl
@[simp] theorem State.take_tickDue (t : Taken) : (s.take t).tickDue = tickDueAfter s.tickDue t.agent := rfl
@[simp] theorem State.take_holds (t : Taken) : (s.take t).holds = resume t.agent (nextStage t.stage) t.more t.rest := rfl

@[simp] theorem State.issue_prog (r : Request) : (s.issue r).prog = s.prog := rfl
@[simp] theorem State.issue_wram (r : Request) : (s.issue r).wram = s.wram := rfl
@[simp] theorem State.issue_vram (r : Request) : (s.issue r).vram = s.vram := rfl
@[simp] theorem State.issue_sr (r : Request) : (s.issue r).sr = s.sr := rfl
@[simp] theorem State.issue_so (r : Request) : (s.issue r).so = s.so := rfl
@[simp] theorem State.issue_la (r : Request) : (s.issue r).la = s.la := rfl
@[simp] theorem State.issue_lb (r : Request) : (s.issue r).lb = s.lb := rfl
@[simp] theorem State.issue_iq (r : Request) : (s.issue r).iq = s.iq := rfl
@[simp] theorem State.issue_cycPrev (r : Request) : (s.issue r).cycPrev = s.cycPrev := rfl
@[simp] theorem State.issue_response (r : Request) : (s.issue r).response = s.response := rfl
@[simp] theorem State.issue_diag (r : Request) : (s.issue r).diag = s.diag := rfl
@[simp] theorem State.issue_draws (r : Request) : (s.issue r).draws = s.draws := rfl
@[simp] theorem State.issue_started (r : Request) : (s.issue r).started = s.started := rfl
@[simp] theorem State.issue_booted (r : Request) : (s.issue r).booted = s.booted := rfl
@[simp] theorem State.issue_tickDue (r : Request) : (s.issue r).tickDue = s.tickDue := rfl
@[simp] theorem State.issue_holds (r : Request) : (s.issue r).holds = ⟨none, [r], .fresh⟩ :: s.holds := rfl

@[simp] theorem State.setStore_PROG_prog (m : Memory) : (s.setStore .PROG m).prog = m := rfl
@[simp] theorem State.setStore_PROG_wram (m : Memory) : (s.setStore .PROG m).wram = s.wram := rfl
@[simp] theorem State.setStore_PROG_vram (m : Memory) : (s.setStore .PROG m).vram = s.vram := rfl
@[simp] theorem State.setStore_PROG_sr (m : Memory) : (s.setStore .PROG m).sr = s.sr := rfl
@[simp] theorem State.setStore_PROG_so (m : Memory) : (s.setStore .PROG m).so = s.so := rfl
@[simp] theorem State.setStore_PROG_la (m : Memory) : (s.setStore .PROG m).la = s.la := rfl
@[simp] theorem State.setStore_PROG_lb (m : Memory) : (s.setStore .PROG m).lb = s.lb := rfl
@[simp] theorem State.setStore_PROG_iq (m : Memory) : (s.setStore .PROG m).iq = s.iq := rfl
@[simp] theorem State.setStore_PROG_cycPrev (m : Memory) : (s.setStore .PROG m).cycPrev = s.cycPrev := rfl
@[simp] theorem State.setStore_PROG_response (m : Memory) : (s.setStore .PROG m).response = s.response := rfl
@[simp] theorem State.setStore_PROG_diag (m : Memory) : (s.setStore .PROG m).diag = s.diag := rfl
@[simp] theorem State.setStore_PROG_draws (m : Memory) : (s.setStore .PROG m).draws = s.draws := rfl
@[simp] theorem State.setStore_PROG_started (m : Memory) : (s.setStore .PROG m).started = s.started := rfl
@[simp] theorem State.setStore_PROG_booted (m : Memory) : (s.setStore .PROG m).booted = s.booted := rfl
@[simp] theorem State.setStore_PROG_tickDue (m : Memory) : (s.setStore .PROG m).tickDue = s.tickDue := rfl
@[simp] theorem State.setStore_PROG_holds (m : Memory) : (s.setStore .PROG m).holds = s.holds := rfl

@[simp] theorem State.setStore_WRAM_prog (m : Memory) : (s.setStore .WRAM m).prog = s.prog := rfl
@[simp] theorem State.setStore_WRAM_wram (m : Memory) : (s.setStore .WRAM m).wram = m := rfl
@[simp] theorem State.setStore_WRAM_vram (m : Memory) : (s.setStore .WRAM m).vram = s.vram := rfl
@[simp] theorem State.setStore_WRAM_sr (m : Memory) : (s.setStore .WRAM m).sr = s.sr := rfl
@[simp] theorem State.setStore_WRAM_so (m : Memory) : (s.setStore .WRAM m).so = s.so := rfl
@[simp] theorem State.setStore_WRAM_la (m : Memory) : (s.setStore .WRAM m).la = s.la := rfl
@[simp] theorem State.setStore_WRAM_lb (m : Memory) : (s.setStore .WRAM m).lb = s.lb := rfl
@[simp] theorem State.setStore_WRAM_iq (m : Memory) : (s.setStore .WRAM m).iq = s.iq := rfl
@[simp] theorem State.setStore_WRAM_cycPrev (m : Memory) : (s.setStore .WRAM m).cycPrev = s.cycPrev := rfl
@[simp] theorem State.setStore_WRAM_response (m : Memory) : (s.setStore .WRAM m).response = s.response := rfl
@[simp] theorem State.setStore_WRAM_diag (m : Memory) : (s.setStore .WRAM m).diag = s.diag := rfl
@[simp] theorem State.setStore_WRAM_draws (m : Memory) : (s.setStore .WRAM m).draws = s.draws := rfl
@[simp] theorem State.setStore_WRAM_started (m : Memory) : (s.setStore .WRAM m).started = s.started := rfl
@[simp] theorem State.setStore_WRAM_booted (m : Memory) : (s.setStore .WRAM m).booted = s.booted := rfl
@[simp] theorem State.setStore_WRAM_tickDue (m : Memory) : (s.setStore .WRAM m).tickDue = s.tickDue := rfl
@[simp] theorem State.setStore_WRAM_holds (m : Memory) : (s.setStore .WRAM m).holds = s.holds := rfl

@[simp] theorem State.setStore_VRAM_prog (m : Memory) : (s.setStore .VRAM m).prog = s.prog := rfl
@[simp] theorem State.setStore_VRAM_wram (m : Memory) : (s.setStore .VRAM m).wram = s.wram := rfl
@[simp] theorem State.setStore_VRAM_vram (m : Memory) : (s.setStore .VRAM m).vram = m := rfl
@[simp] theorem State.setStore_VRAM_sr (m : Memory) : (s.setStore .VRAM m).sr = s.sr := rfl
@[simp] theorem State.setStore_VRAM_so (m : Memory) : (s.setStore .VRAM m).so = s.so := rfl
@[simp] theorem State.setStore_VRAM_la (m : Memory) : (s.setStore .VRAM m).la = s.la := rfl
@[simp] theorem State.setStore_VRAM_lb (m : Memory) : (s.setStore .VRAM m).lb = s.lb := rfl
@[simp] theorem State.setStore_VRAM_iq (m : Memory) : (s.setStore .VRAM m).iq = s.iq := rfl
@[simp] theorem State.setStore_VRAM_cycPrev (m : Memory) : (s.setStore .VRAM m).cycPrev = s.cycPrev := rfl
@[simp] theorem State.setStore_VRAM_response (m : Memory) : (s.setStore .VRAM m).response = s.response := rfl
@[simp] theorem State.setStore_VRAM_diag (m : Memory) : (s.setStore .VRAM m).diag = s.diag := rfl
@[simp] theorem State.setStore_VRAM_draws (m : Memory) : (s.setStore .VRAM m).draws = s.draws := rfl
@[simp] theorem State.setStore_VRAM_started (m : Memory) : (s.setStore .VRAM m).started = s.started := rfl
@[simp] theorem State.setStore_VRAM_booted (m : Memory) : (s.setStore .VRAM m).booted = s.booted := rfl
@[simp] theorem State.setStore_VRAM_tickDue (m : Memory) : (s.setStore .VRAM m).tickDue = s.tickDue := rfl
@[simp] theorem State.setStore_VRAM_holds (m : Memory) : (s.setStore .VRAM m).holds = s.holds := rfl

@[simp] theorem State.setLatch_A_prog (v : Byte) : (s.setLatch .A v).prog = s.prog := rfl
@[simp] theorem State.setLatch_A_wram (v : Byte) : (s.setLatch .A v).wram = s.wram := rfl
@[simp] theorem State.setLatch_A_vram (v : Byte) : (s.setLatch .A v).vram = s.vram := rfl
@[simp] theorem State.setLatch_A_sr (v : Byte) : (s.setLatch .A v).sr = s.sr := rfl
@[simp] theorem State.setLatch_A_so (v : Byte) : (s.setLatch .A v).so = s.so := rfl
@[simp] theorem State.setLatch_A_la (v : Byte) : (s.setLatch .A v).la = v := rfl
@[simp] theorem State.setLatch_A_lb (v : Byte) : (s.setLatch .A v).lb = s.lb := rfl
@[simp] theorem State.setLatch_A_iq (v : Byte) : (s.setLatch .A v).iq = s.iq := rfl
@[simp] theorem State.setLatch_A_cycPrev (v : Byte) : (s.setLatch .A v).cycPrev = s.cycPrev := rfl
@[simp] theorem State.setLatch_A_response (v : Byte) : (s.setLatch .A v).response = s.response := rfl
@[simp] theorem State.setLatch_A_diag (v : Byte) : (s.setLatch .A v).diag = s.diag := rfl
@[simp] theorem State.setLatch_A_draws (v : Byte) : (s.setLatch .A v).draws = s.draws := rfl
@[simp] theorem State.setLatch_A_started (v : Byte) : (s.setLatch .A v).started = s.started := rfl
@[simp] theorem State.setLatch_A_booted (v : Byte) : (s.setLatch .A v).booted = s.booted := rfl
@[simp] theorem State.setLatch_A_tickDue (v : Byte) : (s.setLatch .A v).tickDue = s.tickDue := rfl
@[simp] theorem State.setLatch_A_holds (v : Byte) : (s.setLatch .A v).holds = s.holds := rfl

@[simp] theorem State.setLatch_B_prog (v : Byte) : (s.setLatch .B v).prog = s.prog := rfl
@[simp] theorem State.setLatch_B_wram (v : Byte) : (s.setLatch .B v).wram = s.wram := rfl
@[simp] theorem State.setLatch_B_vram (v : Byte) : (s.setLatch .B v).vram = s.vram := rfl
@[simp] theorem State.setLatch_B_sr (v : Byte) : (s.setLatch .B v).sr = s.sr := rfl
@[simp] theorem State.setLatch_B_so (v : Byte) : (s.setLatch .B v).so = s.so := rfl
@[simp] theorem State.setLatch_B_la (v : Byte) : (s.setLatch .B v).la = s.la := rfl
@[simp] theorem State.setLatch_B_lb (v : Byte) : (s.setLatch .B v).lb = v := rfl
@[simp] theorem State.setLatch_B_iq (v : Byte) : (s.setLatch .B v).iq = s.iq := rfl
@[simp] theorem State.setLatch_B_cycPrev (v : Byte) : (s.setLatch .B v).cycPrev = s.cycPrev := rfl
@[simp] theorem State.setLatch_B_response (v : Byte) : (s.setLatch .B v).response = s.response := rfl
@[simp] theorem State.setLatch_B_diag (v : Byte) : (s.setLatch .B v).diag = s.diag := rfl
@[simp] theorem State.setLatch_B_draws (v : Byte) : (s.setLatch .B v).draws = s.draws := rfl
@[simp] theorem State.setLatch_B_started (v : Byte) : (s.setLatch .B v).started = s.started := rfl
@[simp] theorem State.setLatch_B_booted (v : Byte) : (s.setLatch .B v).booted = s.booted := rfl
@[simp] theorem State.setLatch_B_tickDue (v : Byte) : (s.setLatch .B v).tickDue = s.tickDue := rfl
@[simp] theorem State.setLatch_B_holds (v : Byte) : (s.setLatch .B v).holds = s.holds := rfl

@[simp] theorem State.store_PROG : s.store .PROG = s.prog := rfl
@[simp] theorem State.store_WRAM : s.store .WRAM = s.wram := rfl
@[simp] theorem State.store_VRAM : s.store .VRAM = s.vram := rfl
@[simp] theorem State.latch_A : s.latch .A = s.la := rfl
@[simp] theorem State.latch_B : s.latch .B = s.lb := rfl

/-! An update of anything but a store leaves every store as it is; an update of a store leaves every register as it is. -/

@[simp] theorem State.setSr_store (v : BitVec 16) (st : Store) : (s.setSr v).store st = s.store st := by cases st <;> rfl
@[simp] theorem State.setSo_store (v : BitVec 3) (st : Store) : (s.setSo v).store st = s.store st := by cases st <;> rfl
@[simp] theorem State.setIq_store (vs : List Byte) (st : Store) : (s.setIq vs).store st = s.store st := by cases st <;> rfl
@[simp] theorem State.setCycPrev_store (n : Count) (st : Store) : (s.setCycPrev n).store st = s.store st := by cases st <;> rfl
@[simp] theorem State.answer_store (r : Response) (st : Store) : (s.answer r).store st = s.store st := by cases st <;> rfl
@[simp] theorem State.report_store (r : Response) (d : Diag) (st : Store) : (s.report r d).store st = s.store st := by cases st <;> rfl
@[simp] theorem State.countDraw_store (st : Store) : (s.countDraw).store st = s.store st := by cases st <;> rfl
@[simp] theorem State.take_store (t : Taken) (st : Store) : (s.take t).store st = s.store st := by cases st <;> rfl
@[simp] theorem State.issue_store (r : Request) (st : Store) : (s.issue r).store st = s.store st := by cases st <;> rfl
@[simp] theorem State.setLatch_store (f : LatchField) (v : Byte) (st : Store) : (s.setLatch f v).store st = s.store st := by
  cases f <;> cases st <;> rfl

@[simp] theorem State.setStore_store_same (st : Store) (m : Memory) : (s.setStore st m).store st = m := by
  cases st <;> rfl

theorem State.setStore_store_other {st st' : Store} (h : st' ≠ st) (m : Memory) :
    (s.setStore st m).store st' = s.store st' := by
  cases st <;> cases st' <;> first | rfl | exact absurd rfl h

theorem State.setStore_store (st st' : Store) (m : Memory) :
    (s.setStore st m).store st' = if st' = st then m else s.store st' := by
  split
  · next h => rw [h, State.setStore_store_same]
  · next h => exact State.setStore_store_other s h m

@[simp] theorem State.setLatch_latch_same (f : LatchField) (v : Byte) : (s.setLatch f v).latch f = v := by cases f <;> rfl

@[simp] theorem State.setStore_sr (st : Store) (m : Memory) : (s.setStore st m).sr = s.sr := by cases st <;> rfl
@[simp] theorem State.setStore_so (st : Store) (m : Memory) : (s.setStore st m).so = s.so := by cases st <;> rfl
@[simp] theorem State.setStore_la (st : Store) (m : Memory) : (s.setStore st m).la = s.la := by cases st <;> rfl
@[simp] theorem State.setStore_lb (st : Store) (m : Memory) : (s.setStore st m).lb = s.lb := by cases st <;> rfl
@[simp] theorem State.setStore_iq (st : Store) (m : Memory) : (s.setStore st m).iq = s.iq := by cases st <;> rfl
@[simp] theorem State.setStore_cycPrev (st : Store) (m : Memory) : (s.setStore st m).cycPrev = s.cycPrev := by cases st <;> rfl
@[simp] theorem State.setStore_response (st : Store) (m : Memory) : (s.setStore st m).response = s.response := by cases st <;> rfl
@[simp] theorem State.setStore_diag (st : Store) (m : Memory) : (s.setStore st m).diag = s.diag := by cases st <;> rfl
@[simp] theorem State.setStore_draws (st : Store) (m : Memory) : (s.setStore st m).draws = s.draws := by cases st <;> rfl
@[simp] theorem State.setStore_started (st : Store) (m : Memory) : (s.setStore st m).started = s.started := by cases st <;> rfl
@[simp] theorem State.setStore_booted (st : Store) (m : Memory) : (s.setStore st m).booted = s.booted := by cases st <;> rfl
@[simp] theorem State.setStore_tickDue (st : Store) (m : Memory) : (s.setStore st m).tickDue = s.tickDue := by cases st <;> rfl
@[simp] theorem State.setStore_holds (st : Store) (m : Memory) : (s.setStore st m).holds = s.holds := by cases st <;> rfl

@[simp] theorem State.setLatch_prog (f : LatchField) (v : Byte) : (s.setLatch f v).prog = s.prog := by cases f <;> rfl
@[simp] theorem State.setLatch_wram (f : LatchField) (v : Byte) : (s.setLatch f v).wram = s.wram := by cases f <;> rfl
@[simp] theorem State.setLatch_vram (f : LatchField) (v : Byte) : (s.setLatch f v).vram = s.vram := by cases f <;> rfl
@[simp] theorem State.setLatch_sr (f : LatchField) (v : Byte) : (s.setLatch f v).sr = s.sr := by cases f <;> rfl
@[simp] theorem State.setLatch_so (f : LatchField) (v : Byte) : (s.setLatch f v).so = s.so := by cases f <;> rfl
@[simp] theorem State.setLatch_iq (f : LatchField) (v : Byte) : (s.setLatch f v).iq = s.iq := by cases f <;> rfl
@[simp] theorem State.setLatch_cycPrev (f : LatchField) (v : Byte) : (s.setLatch f v).cycPrev = s.cycPrev := by cases f <;> rfl
@[simp] theorem State.setLatch_response (f : LatchField) (v : Byte) : (s.setLatch f v).response = s.response := by cases f <;> rfl
@[simp] theorem State.setLatch_diag (f : LatchField) (v : Byte) : (s.setLatch f v).diag = s.diag := by cases f <;> rfl
@[simp] theorem State.setLatch_draws (f : LatchField) (v : Byte) : (s.setLatch f v).draws = s.draws := by cases f <;> rfl
@[simp] theorem State.setLatch_started (f : LatchField) (v : Byte) : (s.setLatch f v).started = s.started := by cases f <;> rfl
@[simp] theorem State.setLatch_booted (f : LatchField) (v : Byte) : (s.setLatch f v).booted = s.booted := by cases f <;> rfl
@[simp] theorem State.setLatch_tickDue (f : LatchField) (v : Byte) : (s.setLatch f v).tickDue = s.tickDue := by cases f <;> rfl
@[simp] theorem State.setLatch_holds (f : LatchField) (v : Byte) : (s.setLatch f v).holds = s.holds := by cases f <;> rfl

/-- Two states with equal fields are equal. -/
theorem State.ext_fields {s t : State} (hprog : s.prog = t.prog) (hwram : s.wram = t.wram) (hvram : s.vram = t.vram)
    (hsr : s.sr = t.sr) (hso : s.so = t.so) (hla : s.la = t.la) (hlb : s.lb = t.lb) (hiq : s.iq = t.iq)
    (hcyc : s.cycPrev = t.cycPrev) (hresponse : s.response = t.response) (hdiag : s.diag = t.diag)
    (hdraws : s.draws = t.draws) (hstarted : s.started = t.started) (hbooted : s.booted = t.booted) (htick : s.tickDue = t.tickDue)
    (hholds : s.holds = t.holds) : s = t := by
  obtain ⟨⟨_, _, _, _, _, _, _, _, _⟩, _, _, _, _, _, _, _⟩ := s
  obtain ⟨⟨_, _, _, _, _, _, _, _, _⟩, _, _, _, _, _, _, _⟩ := t
  simp_all

end Sys2Proof.Machine
end

