-- ==== Sys2Proof/Laws/Memory.lean ====
section
/-! SUPPORT. The laws of a byte store: every write keeps the canonical form and the size; a read after a write to the same
index gives
the byte written and a write leaves every other index alone; two stores in canonical form that read the same are equal. -/

namespace Sys2Proof.Machine

theorem Memory.wfFrom_mono {lo lo' : Nat} (h : lo' ≤ lo) : ∀ {m : Memory}, m.wfFrom lo = true → m.wfFrom lo' = true
  | [], _ => rfl
  | (k, v) :: m, hm => by
    simp only [Memory.wfFrom, Bool.and_eq_true, decide_eq_true_eq] at hm ⊢
    exact ⟨⟨by omega, hm.1.2⟩, hm.2⟩

/-- An index below the first listed one reads as 0x00. -/
theorem Memory.read_of_lt {lo n : Nat} (h : n < lo) : ∀ {m : Memory}, m.wfFrom lo = true → m.read n = 0
  | [], _ => rfl
  | (k, v) :: m, hm => by
    simp only [Memory.wfFrom, Bool.and_eq_true, decide_eq_true_eq] at hm
    have hk : n < k := by omega
    simp [Memory.read, hk, Nat.ne_of_gt hk]

theorem Memory.read_cons (n k : Nat) (v : Byte) (m : Memory) :
    Memory.read ((k, v) :: m) n = if k = n then v else if n < k then 0 else m.read n := rfl

/-- A read through `Memory.cons` over cells that start after `k`. -/
theorem Memory.read_cons' {k : Nat} (v : Byte) {m : Memory} (hm : m.wfFrom (k + 1) = true) (n : Nat) :
    (Memory.cons k v m).read n = if n = k then v else m.read n := by
  unfold Memory.cons
  by_cases hv : v = 0
  · rw [if_pos hv]
    by_cases hn : n = k
    · rw [if_pos hn, hn, hv, Memory.read_of_lt (Nat.lt_succ_self k) hm]
    · rw [if_neg hn]
  · rw [if_neg hv, Memory.read_cons]
    by_cases hn : n = k
    · rw [if_pos hn.symm, if_pos hn]
    · rw [if_neg (Ne.symm hn), if_neg hn]
      by_cases hlt : n < k
      · rw [if_pos hlt, Memory.read_of_lt (by omega) hm]
      · rw [if_neg hlt]

/-- What a read gives after a write: the byte written at its own index, the old byte at every other. -/
theorem Memory.read_write {lo : Nat} (n : Nat) (v : Byte) (j : Nat) :
    ∀ {m : Memory}, m.wfFrom lo = true → (m.write n v).read j = if j = n then v else m.read j
  | [], _ => by
    rw [Memory.write, Memory.read_cons' v (m := []) rfl]
  | (k, u) :: m, hm => by
    have h := hm
    simp only [Memory.wfFrom, Bool.and_eq_true, decide_eq_true_eq] at h
    rw [Memory.write]
    by_cases hkn : k = n
    · rw [if_pos hkn, ← hkn, Memory.read_cons' v h.2, Memory.read_cons]
      by_cases hj : j = k
      · rw [if_pos hj, if_pos hj]
      · rw [if_neg hj, if_neg hj, if_neg (Ne.symm hj)]
        by_cases hlt : j < k
        · rw [if_pos hlt, Memory.read_of_lt (by omega) h.2]
        · rw [if_neg hlt]
    · rw [if_neg hkn]
      by_cases hnk : n < k
      · rw [if_pos hnk]
        refine Memory.read_cons' v ?_ j
        simp only [Memory.wfFrom, Bool.and_eq_true, decide_eq_true_eq]
        exact ⟨⟨hnk, h.1.2⟩, h.2⟩
      · rw [if_neg hnk, Memory.read_cons, Memory.read_cons, Memory.read_write n v j h.2]
        by_cases hj : j = n
        · rw [if_pos hj, if_pos hj, if_neg (by omega), if_neg (by omega)]
        · rw [if_neg hj, if_neg hj]

theorem Memory.wfFrom_cons {lo n : Nat} (h : lo ≤ n) (v : Byte) {m : Memory} (hm : m.wfFrom (n + 1) = true) :
    (Memory.cons n v m).wfFrom lo = true := by
  unfold Memory.cons
  by_cases hv : v = 0
  · rw [if_pos hv]
    exact Memory.wfFrom_mono (by omega) hm
  · rw [if_neg hv]
    simp only [Memory.wfFrom, Bool.and_eq_true, decide_eq_true_eq, bne_iff_ne, ne_eq]
    exact ⟨⟨h, hv⟩, hm⟩

theorem Memory.wfFrom_write {lo n : Nat} (h : lo ≤ n) (v : Byte) :
    ∀ {m : Memory}, m.wfFrom lo = true → (m.write n v).wfFrom lo = true
  | [], _ => Memory.wfFrom_cons h v rfl
  | (k, u) :: m, hm => by
    have hm' := hm
    simp only [Memory.wfFrom, Bool.and_eq_true, decide_eq_true_eq] at hm'
    rw [Memory.write]
    by_cases hkn : k = n
    · rw [if_pos hkn]
      exact Memory.wfFrom_cons h v (hkn ▸ hm'.2)
    · rw [if_neg hkn]
      by_cases hnk : n < k
      · rw [if_pos hnk]
        refine Memory.wfFrom_cons h v ?_
        simp only [Memory.wfFrom, Bool.and_eq_true, decide_eq_true_eq]
        exact ⟨⟨hnk, hm'.1.2⟩, hm'.2⟩
      · rw [if_neg hnk]
        simp only [Memory.wfFrom, Bool.and_eq_true, decide_eq_true_eq]
        exact ⟨hm'.1, Memory.wfFrom_write (by omega) v hm'.2⟩

/-- Every write keeps the canonical form. -/
theorem Memory.wf_write (n : Nat) (v : Byte) {m : Memory} (h : m.wf = true) : (m.write n v).wf = true :=
  Memory.wfFrom_write (Nat.zero_le n) v h

theorem Memory.below_cons {size n : Nat} (h : n < size) (v : Byte) {m : Memory} (hm : m.below size = true) :
    (Memory.cons n v m).below size = true := by
  unfold Memory.cons
  by_cases hv : v = 0
  · rw [if_pos hv]
    exact hm
  · rw [if_neg hv]
    simpa [Memory.below, h] using hm

/-- A write inside the size keeps every index inside the size. -/
theorem Memory.below_write {size n : Nat} (h : n < size) (v : Byte) :
    ∀ {m : Memory}, m.below size = true → (m.write n v).below size = true
  | [], _ => Memory.below_cons h v rfl
  | (k, u) :: m, hm => by
    have hm' : k < size ∧ Memory.below size m = true := by simpa [Memory.below] using hm
    rw [Memory.write]
    by_cases hkn : k = n
    · rw [if_pos hkn]
      exact Memory.below_cons h v hm'.2
    · rw [if_neg hkn]
      by_cases hnk : n < k
      · rw [if_pos hnk]
        exact Memory.below_cons h v hm
      · rw [if_neg hnk]
        have := Memory.below_write h v hm'.2
        simpa [Memory.below, hm'.1] using this

/-- Two stores in canonical form that read the same at every index are the same list. -/
theorem Memory.eq_of_read {lo : Nat} : ∀ {m m' : Memory}, m.wfFrom lo = true → m'.wfFrom lo = true →
    (∀ n, m.read n = m'.read n) → m = m'
  | [], [], _, _, _ => rfl
  | [], (k, v) :: m, _, h', hr => by
    simp only [Memory.wfFrom, Bool.and_eq_true, bne_iff_ne, ne_eq] at h'
    exact absurd (by simpa [Memory.read] using (hr k).symm) h'.1.2
  | (k, v) :: m, [], h, _, hr => by
    simp only [Memory.wfFrom, Bool.and_eq_true, bne_iff_ne, ne_eq] at h
    exact absurd (by simpa [Memory.read] using hr k) h.1.2
  | (k, v) :: m, (k', v') :: m', h, h', hr => by
    simp only [Memory.wfFrom, Bool.and_eq_true, bne_iff_ne, ne_eq] at h h'
    have hk : k = k' := by
      rcases Nat.lt_trichotomy k k' with hlt | heq | hgt
      · exact absurd (by simpa [Memory.read, Nat.ne_of_gt hlt, hlt] using hr k) h.1.2
      · exact heq
      · exact absurd (by simpa [Memory.read, Nat.ne_of_gt hgt, hgt] using (hr k').symm) h'.1.2
    subst hk
    have hv : v = v' := by simpa [Memory.read] using hr k
    subst hv
    refine congrArg _ (Memory.eq_of_read h.2 h'.2 fun n => ?_)
    rcases Nat.lt_or_ge k n with hn | hn
    · simpa [Memory.read, Nat.ne_of_lt hn, Nat.not_lt_of_gt hn] using hr n
    · rw [Memory.read_of_lt (Nat.lt_succ_of_le hn) h.2, Memory.read_of_lt (Nat.lt_succ_of_le hn) h'.2]

end Sys2Proof.Machine
end

