-- ==== Sys2Proof/Laws/Ops.lean ====
section
/-! SUPPORT. What each shared operation can do, said once: the address decoder, the byte writes, an image load, the queue, the
interrupt source's observation. -/

namespace Sys2Proof.Machine

/-! ## The address decoder -/

theorem toNat_inc16 (a : Addr) : (inc16 a).toNat = (a.toNat + 1) % 0x10000 := by
  simp [inc16, BitVec.toNat_add]

/-- Every address resolves inside its store (spec/20_memory.md R41). -/
theorem region_lt (a : Addr) : (region a).2 < storeSize (region a).1 := by
  have := a.isLt
  simp only [region]
  split
  · simp only [storeSize]; omega
  · split
    · simp only [storeSize]; omega
    · split
      · simp only [storeSize]; omega
      · simp only [storeSize]; omega

theorem region_program {a : Addr} (h : a.toNat ≤ 0x1FFF) : region a = (.PROG, a.toNat) := by
  simp [region, h]

theorem region_working {a : Addr} (h : 0x2000 ≤ a.toNat) (h' : a.toNat ≤ 0x23FF) :
    region a = (.WRAM, a.toNat - 0x2000) := by
  simp only [region]
  rw [if_neg (by omega), if_pos h']

theorem region_video {a : Addr} (h : 0x2400 ≤ a.toNat) (h' : a.toNat ≤ 0x3FFF) :
    region a = (.VRAM, a.toNat - 0x2400) := by
  simp only [region]
  rw [if_neg (by omega), if_neg (by omega), if_pos h']

theorem region_mirror {a : Addr} (h : 0x4000 ≤ a.toNat) : region a = (.WRAM, (a.toNat - 0x4000) % 0x400) := by
  simp only [region]
  rw [if_neg (by omega), if_neg (by omega), if_neg (by omega)]

/-- The program view is the addresses below 0x2000 (spec/20_memory.md R43). -/
theorem region_fst_eq_PROG (a : Addr) : (region a).1 = .PROG ↔ a.toNat ≤ 0x1FFF := by
  simp only [region]
  split
  · next h => simp [h]
  · next h => split
              · simp [h]
              · split <;> simp [h]

/-! ## Reading and writing bytes -/

/-- What a read gives after the unrestricted write: the byte at every address of the byte written, the old byte at every other. -/
theorem memRead_memLoad {s : State} (hs : StoresOk s) (a b : Addr) (v : Byte) :
    memRead (memLoad s a v) b = if region b = region a then v else memRead s b := by
  have hw : (s.store (region a).1).wfFrom 0 = true := (hs (region a).1).1
  simp only [memRead, memLoad, State.setStore_store]
  by_cases h : (region b).1 = (region a).1
  · rw [if_pos h, Memory.read_write _ _ _ hw]
    by_cases h2 : (region b).2 = (region a).2
    · rw [if_pos h2, if_pos (Prod.ext h h2)]
    · rw [if_neg h2, if_neg (fun e => h2 (congrArg Prod.snd e)), h]
  · rw [if_neg h, if_neg (fun e => h (congrArg Prod.fst e))]

theorem memWrite_program {s : State} {a : Addr} (h : a.toNat ≤ 0x1FFF) (v : Byte) : memWrite s a v = s := by
  simp [memWrite, (region_fst_eq_PROG a).mpr h]

theorem memWrite_other {s : State} {a : Addr} (h : 0x2000 ≤ a.toNat) (v : Byte) : memWrite s a v = memLoad s a v := by
  have : (region a).1 ≠ .PROG := fun e => by have := (region_fst_eq_PROG a).mp e; omega
  simp [memWrite, this]

/-- A run-time write is the unrestricted write outside the program view and nothing in it (spec/20_memory.md R43). -/
theorem memWrite_cases (s : State) (a : Addr) (v : Byte) :
    (a.toNat ≤ 0x1FFF ∧ memWrite s a v = s) ∨ (0x2000 ≤ a.toNat ∧ memWrite s a v = memLoad s a v) := by
  rcases Nat.lt_or_ge a.toNat 0x2000 with h | h
  · exact .inl ⟨by omega, memWrite_program (by omega) v⟩
  · exact .inr ⟨h, memWrite_other h v⟩

/-- The answer of a transaction is not part of what a read sees. -/
@[simp] theorem memRead_answer (s : State) (r : Response) (b : Addr) : memRead (s.answer r) b = memRead s b := by
  simp [memRead]

theorem memRead_congr {s t : State} (h : ∀ st, s.store st = t.store st) (b : Addr) : memRead s b = memRead t b := by
  simp [memRead, h]

/-! ## The invariant of the stores -/

theorem StoresOk.congr {s t : State} (hs : StoresOk s) (h : ∀ st, t.store st = s.store st) : StoresOk t := fun st => by
  rw [h st]; exact hs st

theorem StoresOk.memLoad {s : State} (hs : StoresOk s) (a : Addr) (v : Byte) : StoresOk (memLoad s a v) := fun st => by
  simp only [Machine.memLoad, State.setStore_store]
  split
  · next h =>
    subst h
    exact ⟨Memory.wf_write _ _ (hs _).1, Memory.below_write (region_lt a) _ (hs _).2⟩
  · exact hs st

theorem StoresOk.memWrite {s : State} (hs : StoresOk s) (a : Addr) (v : Byte) : StoresOk (memWrite s a v) := by
  rcases memWrite_cases s a v with ⟨-, h⟩ | ⟨-, h⟩
  · rw [h]; exact hs
  · rw [h]; exact hs.memLoad a v

theorem StoresOk.memWriteWord {s : State} (hs : StoresOk s) (a : Addr) (w : Word16) : StoresOk (memWriteWord s a w) :=
  (hs.memWrite _ _).memWrite _ _

theorem StoresOk.loadBytes : ∀ {s : State} (base : Addr) (vs : List Byte), StoresOk s → StoresOk (loadBytes s base vs)
  | _, _, [], hs => hs
  | _, _, _ :: vs, hs => StoresOk.loadBytes _ vs (hs.memLoad _ _)

theorem StoresOk.loadBlocks {s : State} (hs : StoresOk s) (b0 b1 b2 b3 : List Byte) :
    StoresOk (loadBlocks s b0 b1 b2 b3) :=
  .loadBytes _ _ (.loadBytes _ _ (.loadBytes _ _ (.loadBytes _ _ hs)))

/-! ## What a write leaves alone -/

/-- Two states differ at most in the contents of the stores. -/
def SameButStores (s t : State) : Prop :=
  t.sr = s.sr ∧ t.so = s.so ∧ t.la = s.la ∧ t.lb = s.lb ∧ t.iq = s.iq ∧ t.cycPrev = s.cycPrev ∧
    t.draws = s.draws ∧ t.started = s.started ∧ t.booted = s.booted ∧ t.tickDue = s.tickDue ∧ t.holds = s.holds

theorem SameButStores.refl (s : State) : SameButStores s s := ⟨rfl, rfl, rfl, rfl, rfl, rfl, rfl, rfl, rfl, rfl, rfl⟩

theorem SameButStores.trans {s t u : State} (h : SameButStores s t) (h' : SameButStores t u) : SameButStores s u := by
  obtain ⟨a1, a2, a3, a4, a5, a6, a7, a8, a9, a10, a11⟩ := h
  obtain ⟨b1, b2, b3, b4, b5, b6, b7, b8, b9, b10, b11⟩ := h'
  exact ⟨b1.trans a1, b2.trans a2, b3.trans a3, b4.trans a4, b5.trans a5, b6.trans a6, b7.trans a7, b8.trans a8,
    b9.trans a9, b10.trans a10, b11.trans a11⟩

theorem sameButStores_memLoad (s : State) (a : Addr) (v : Byte) : SameButStores s (memLoad s a v) := by
  simp [SameButStores, memLoad]

theorem sameButStores_memWrite (s : State) (a : Addr) (v : Byte) : SameButStores s (memWrite s a v) := by
  rcases memWrite_cases s a v with ⟨-, h⟩ | ⟨-, h⟩
  · rw [h]; exact .refl s
  · rw [h]; exact sameButStores_memLoad s a v

theorem sameButStores_memWriteWord (s : State) (a : Addr) (w : Word16) : SameButStores s (memWriteWord s a w) :=
  (sameButStores_memWrite s _ _).trans (sameButStores_memWrite _ _ _)

theorem sameButStores_loadBytes : ∀ (s : State) (base : Addr) (vs : List Byte), SameButStores s (loadBytes s base vs)
  | s, _, [] => .refl s
  | s, base, v :: vs => (sameButStores_memLoad s base v).trans (sameButStores_loadBytes _ _ vs)

theorem sameButStores_loadBlocks (s : State) (b0 b1 b2 b3 : List Byte) : SameButStores s (loadBlocks s b0 b1 b2 b3) :=
  (((sameButStores_loadBytes _ _ _).trans (sameButStores_loadBytes _ _ _)).trans (sameButStores_loadBytes _ _ _)).trans
    (sameButStores_loadBytes _ _ _)

/-- The run-time write never touches the program store (spec/10_state.md R11). -/
theorem memWrite_prog (s : State) (a : Addr) (v : Byte) : (memWrite s a v).prog = s.prog := by
  rcases memWrite_cases s a v with ⟨-, h⟩ | ⟨h, h'⟩
  · rw [h]
  · have hne : Store.PROG ≠ (region a).1 := fun e => by have := (region_fst_eq_PROG a).mp e.symm; omega
    rw [h']
    exact State.setStore_store_other s hne _

theorem memWriteWord_prog (s : State) (a : Addr) (w : Word16) : (memWriteWord s a w).prog = s.prog := by
  simp [memWriteWord, memWrite_prog]

/-! ## An image load -/

/-- Bytes at addresses the cursor does not visit read as before. -/
theorem memRead_loadBytes_other {b : Addr} : ∀ {s : State} (base : Addr) (vs : List Byte), StoresOk s →
    (∀ a ∈ storedAddrs.cursorAddrs base vs, region a ≠ region b) → memRead (loadBytes s base vs) b = memRead s b
  | _, _, [], _, _ => rfl
  | s, base, v :: vs, hs, h => by
    rw [loadBytes, memRead_loadBytes_other (inc16 base) vs (hs.memLoad _ _)
      fun a ha => h a (List.mem_cons_of_mem _ ha), memRead_memLoad hs]
    exact if_neg fun e => h base (List.mem_cons_self ..) e.symm

/-- The addresses of the cursor: it visits `base + i`, modulo 0x10000, at byte `i`. -/
theorem mem_cursorAddrs {a : Addr} : ∀ {base : Addr} {vs : List Byte},
    a ∈ storedAddrs.cursorAddrs base vs ↔ ∃ i, i < vs.length ∧ a = base + BitVec.ofNat 16 i
  | _, [] => by simp [storedAddrs.cursorAddrs]
  | base, v :: vs => by
    rw [storedAddrs.cursorAddrs, List.mem_cons, mem_cursorAddrs]
    constructor
    · rintro (rfl | ⟨i, hi, rfl⟩)
      · exact ⟨0, by simp, by simp⟩
      · refine ⟨i + 1, by simpa using hi, ?_⟩
        simp only [inc16]
        apply BitVec.eq_of_toNat_eq
        simp [BitVec.toNat_add]
        omega
    · rintro ⟨i, hi, rfl⟩
      cases i with
      | zero => left; simp
      | succ i =>
        refine .inr ⟨i, by simpa using hi, ?_⟩
        simp only [inc16]
        apply BitVec.eq_of_toNat_eq
        simp [BitVec.toNat_add]
        omega

/-! ## The queue and the interrupt source -/

/-- `push` of a list of vectors: it appends them, or a finite queue refuses. -/
theorem pushVectors_cases (c : Params) (s : State) (vs : List Byte) :
    (pushVectors c s vs = .next (s.setIq (s.iq ++ vs)) ∧ ∀ n, c.queueDepth = some n → s.iq.length + vs.length ≤ n) ∨
    (pushVectors c s vs = .refused .queueFull ∧ ∃ n, c.queueDepth = some n ∧ n < s.iq.length + vs.length) := by
  unfold pushVectors
  split
  · next h => exact .inl ⟨rfl, by simp [h]⟩
  · next n h =>
    split
    · next hle => exact .inl ⟨rfl, fun m hm => by simp_all⟩
    · next hlt => exact .inr ⟨rfl, n, h, by omega⟩

/-- With no depth configured, as in the model's parameters, `push` always succeeds (spec/42_interrupt_queue.md R135). -/
theorem pushVectors_params (s : State) (vs : List Byte) : pushVectors params s vs = .next (s.setIq (s.iq ++ vs)) := rfl

/-- `pop` of a queue that is not empty (spec/42_interrupt_queue.md R132). -/
theorem popVector_cons {s : State} {v : Byte} {vs : List Byte} (h : s.iq = v :: vs) :
    popVector s = .next ((s.setIq vs).answer (.byte v)) := by
  simp [popVector, h]

theorem popVector_nil {s : State} (h : s.iq = []) : popVector s = .fault .popEmpty := by
  simp [popVector, h]

theorem length_vectorsBetween (c : Params) (h0 h1 : Nat) : (vectorsBetween c h0 h1).length = h1 - h0 := by
  simp [vectorsBetween]

@[simp] theorem vectorsBetween_self (c : Params) (h : Nat) : vectorsBetween c h h = [] := by
  simp [vectorsBetween]

/-- The vectors of an interval, cut anywhere (spec/60_exceptions.md R158). -/
theorem vectorsBetween_append (c : Params) {h0 h1 h2 : Nat} (h01 : h0 ≤ h1) (h12 : h1 ≤ h2) :
    vectorsBetween c h0 h1 ++ vectorsBetween c h1 h2 = vectorsBetween c h0 h2 := by
  have h : h2 - h0 = (h1 - h0) + (h2 - h1) := by omega
  have h' : h1 + 1 = h0 + 1 + (h1 - h0) := by omega
  rw [vectorsBetween, vectorsBetween, vectorsBetween, ← List.map_append, h, h', List.range'_append_1]

theorem vectorsBetween_succ (c : Params) {h0 h1 : Nat} (h : h0 < h1) :
    vectorsBetween c h0 h1 = vectorFor c (h0 + 1) :: vectorsBetween c (h0 + 1) h1 := by
  have : h1 - h0 = (h1 - (h0 + 1)) + 1 := by omega
  rw [vectorsBetween, this, List.range'_succ]
  rfl

theorem vectorFor_eq (c : Params) (h : Nat) : vectorFor c h = c.vecTop ∨ vectorFor c h = c.vecMid := by
  unfold vectorFor
  split
  · exact .inl rfl
  · exact .inr rfl

/-- The vectors of an interval are the two values (spec/60_exceptions.md R154). -/
theorem mem_vectorsBetween {c : Params} {h0 h1 : Nat} {v : Byte} (h : v ∈ vectorsBetween c h0 h1) :
    v = c.vecTop ∨ v = c.vecMid := by
  obtain ⟨k, -, rfl⟩ := List.mem_map.mp h
  exact vectorFor_eq c k

theorem halfFrame_mono (c : Params) {m n : Count} (h : m.toNat ≤ n.toNat) : halfFrame c m ≤ halfFrame c n :=
  Nat.div_le_div_right h

/-- An observation that is not below the last one (spec/60_exceptions.md R156). -/
theorem observe_params {s : State} {n : Count} (h : s.cycPrev.toNat ≤ n.toNat) :
    observe params s n = .next (((s.setCycPrev n).answer .silent).setIq
      (s.iq ++ vectorsBetween params (halfFrame params s.cycPrev) (halfFrame params n))) := by
  unfold observe
  rw [if_neg (by omega)]
  rfl

theorem observe_decreased (c : Params) {s : State} {n : Count} (h : n.toNat < s.cycPrev.toNat) :
    observe c s n = .refused .countDecreased := by
  unfold observe
  rw [if_pos h]

end Sys2Proof.Machine
end

