-- ==== Sys2Proof/Laws/Step.lean ====
section
/-! SUPPORT. What a step can do, said once: how the next request is taken, and the one inversion of `step`. -/

namespace Sys2Proof.Machine

/-! ## The order of requests -/

@[simp] theorem flat_nil : flat [] = [] := rfl

theorem flat_cons (h : Hold) (hs : List Hold) : flat (h :: hs) = h.requests.map (fun r => (h.agent, r)) ++ flat hs := by
  simp [flat]

@[simp] theorem flat_resume (a : Option Agent) (stage : Stage) (rs : List Request) (hs : List Hold) :
    flat (resume a stage rs hs) = rs.map (fun r => (a, r)) ++ flat hs := by
  cases rs <;> simp [resume, flat_cons]

/-- The request taken is the first of the order, and what is left is the rest. -/
theorem flat_of_nextRequest {hs : List Hold} {t : Taken} (h : nextRequest hs = some t) :
    flat hs = (t.agent, t.request) :: flat (resume t.agent (nextStage t.stage) t.more t.rest) := by
  induction hs with
  | nil => simp [nextRequest] at h
  | cons hd tl ih =>
    rw [nextRequest] at h
    split at h
    · next he => rw [flat_cons, he, ← ih h]; rfl
    · next r rs he =>
      cases h
      simp [flat_cons, he]

theorem nextRequest_cons (h : Hold) (hs : List Hold) : nextRequest (h :: hs) =
    match h.requests with
    | [] => nextRequest hs
    | r :: rs => some ⟨h.agent, r, h.stage, rs, hs⟩ := rfl

theorem nextRequest_eq_none {hs : List Hold} : nextRequest hs = none ↔ flat hs = [] := by
  induction hs with
  | nil => simp [nextRequest]
  | cons hd tl ih =>
    rw [nextRequest, flat_cons]
    split
    · next he => simpa [he] using ih
    · next r rs he => simp [he]

/-- A request that is there is taken. -/
theorem nextRequest_of_flat {hs : List Hold} {x : Issue} {xs : List Issue} (h : flat hs = x :: xs) :
    ∃ t, nextRequest hs = some t ∧ (t.agent, t.request) = x ∧ flat (resume t.agent (nextStage t.stage) t.more t.rest) = xs := by
  cases hn : nextRequest hs with
  | none => rw [nextRequest_eq_none.mp hn] at h; cases h
  | some t =>
    have := flat_of_nextRequest hn
    rw [h, List.cons.injEq] at this
    exact ⟨t, rfl, this.1.symm, this.2.symm⟩

theorem flat_take {s : State} {t : Taken} (h : nextRequest s.holds = some t) :
    flat s.holds = (t.agent, t.request) :: flat (s.take t).holds :=
  flat_of_nextRequest h

@[simp] theorem State.take_toBlock (s : State) (t : Taken) : (s.take t).toBlock = s.toBlock := rfl

/-! ## The step -/

theorem loadGate_eq_none {s : State} {i : Instr} : loadGate s i = none ↔ (isLoad i = true → s.started = false) := by
  unfold loadGate
  cases isLoad i <;> cases s.started <;> simp

theorem loadGate_eq_some {s : State} {i : Instr} {r : Refusal} (h : loadGate s i = some r) :
    r = .loadAfterStart ∧ isLoad i = true ∧ s.started = true := by
  unfold loadGate at h
  cases hl : isLoad i <;> cases hs : s.started <;> simp_all

/-- After a request that is no poll nothing follows. -/
theorem settle_of_not_poll {t : Taken} (h : ∀ e service, t.request ≠ .poll e service) (o : Host.Outcome State Fault Refusal) :
    settle t o = o := by
  unfold settle
  split
  · next e service s he => exact absurd he (h e service)
  · rfl

/-- The state after a poll: unchanged but for the `pop` put in front of what is left of the hold. -/
theorem followPoll_toBlock (t : Taken) (e : Bool) (service : List Instr) (s : State) :
    (followPoll t e service s).toBlock = s.toBlock := by
  unfold followPoll
  split <;> rfl

theorem followPoll_started (t : Taken) (e : Bool) (service : List Instr) (s : State) :
    (followPoll t e service s).started = s.started := by
  unfold followPoll
  split <;> rfl

theorem followPoll_tickDue (t : Taken) (e : Bool) (service : List Instr) (s : State) :
    (followPoll t e service s).tickDue = s.tickDue := by
  unfold followPoll
  split <;> rfl

theorem followPoll_booted (t : Taken) (e : Bool) (service : List Instr) (s : State) :
    (followPoll t e service s).booted = s.booted := by
  unfold followPoll
  split <;> rfl

/-- Once a hold has popped, no poll of it leads to another `pop` (spec/60_exceptions.md R160). -/
theorem followPoll_of_served {t : Taken} (h : mayPop t.stage = false) (e : Bool) (service : List Instr) (s : State) :
    followPoll t e service s = s := by
  simp [followPoll, h]

/-- Everything a step that answers a next state can have done: nothing, with no request to take; or the transaction of the
request it took, and after a poll the engine's decision. -/
theorem step_next_cases {s t : State} (h : step s = .next t) :
    (nextRequest s.holds = none ∧ t = s) ∨
    ∃ x i u, nextRequest s.holds = some x ∧ instrOf x.request = .ok i ∧ loadGate s i = none ∧
      exec i (s.take x) = .next u ∧
      ((∀ e service, x.request ≠ .poll e service) ∧ t = u ∨
        ∃ e service, x.request = .poll e service ∧ i = .hasPending ∧ t = followPoll x e service u) := by
  unfold step at h
  split at h
  · next hn => cases h; exact .inl ⟨hn, rfl⟩
  · next x hn =>
    split at h
    · cases h
    · next i hi =>
      split at h
      · cases h
      · next ha =>
        refine .inr ⟨x, i, ?_⟩
        cases ho : exec i (s.take x) with
        | fault f => rw [ho] at h; unfold settle at h; split at h <;> simp_all
        | refused r => rw [ho] at h; unfold settle at h; split at h <;> simp_all
        | next u =>
          refine ⟨u, hn, hi, ha, rfl, ?_⟩
          rw [ho] at h
          by_cases hp : ∃ e service, x.request = .poll e service
          · obtain ⟨e, service, hp⟩ := hp
            have hi' : i = .hasPending := by rw [hp, instrOf] at hi; injection hi with hi; exact hi.symm
            simp only [settle, hp] at h
            injection h with h
            exact .inr ⟨e, service, hp, hi', h.symm⟩
          · have hp' : ∀ e service, x.request ≠ .poll e service := fun e service he => hp ⟨e, service, he⟩
            rw [settle_of_not_poll hp'] at h
            injection h with h
            exact .inl ⟨hp', h.symm⟩

/-- The step on a request the run admits. -/
theorem step_of_nextRequest {s : State} {x : Taken} {i : Instr} (hn : nextRequest s.holds = some x)
    (hi : instrOf x.request = .ok i) (ha : loadGate s i = none) : step s = settle x (exec i (s.take x)) := by
  simp only [step, hn, hi, ha]

/-- Why a step faults: the transaction it ran did. -/
theorem step_fault_cases {s : State} {f : Fault} (h : step s = .fault f) :
    ∃ x i, nextRequest s.holds = some x ∧ instrOf x.request = .ok i ∧ exec i (s.take x) = .fault f := by
  unfold step at h
  split at h
  · cases h
  · next x hn =>
    split at h
    · cases h
    · next i hi =>
      split at h
      · cases h
      · refine ⟨x, i, hn, hi, ?_⟩
        unfold settle at h
        split at h
        · cases h
        · exact h

/-- `instrOf` a request in its encoded form. -/
theorem instrOf_word (w : TWord) :
    instrOf (.word w) = match decode params w with | .ok i => .ok i | .error e => .error (.invalidWord e) := rfl

theorem instrOf_word_ok {w : TWord} {i : Instr} (h : decode params w = .ok i) : instrOf (.word w) = .ok i := by
  rw [instrOf_word, h]

theorem instrOf_word_error {w : TWord} {e : DecodeError} (h : decode params w = .error e) :
    instrOf (.word w) = .error (.invalidWord e) := by
  rw [instrOf_word, h]

end Sys2Proof.Machine
end

