-- ==== Sys2Proof/Laws/Agents.lean ====
section
/-! SUPPORT. The agents' contract, said once: what a request that keeps it is, what is left of an engine step, a scan and an order of
holds once a request is taken, and how a state keeps the contract. -/

namespace Sys2Proof.Machine

/-! ## One request -/

theorem requestOk_cases {a : Agent} {r : Request} (h : requestOk a r = true) :
    ∃ i, instrOf r = .ok i ∧ mayIssue a i = true ∧ i ≠ .pop ∧ serviceOk r = true := by
  unfold requestOk at h
  split at h
  · cases h
  · next i hi =>
    simp only [Bool.and_eq_true, bne_iff_ne, ne_eq] at h
    exact ⟨i, hi, h.1.1, h.1.2, h.2⟩

theorem tickOf_eq_some {r : Request} {n : Count} : tickOf r = some n ↔ instrOf r = .ok (.tick n) := by
  unfold tickOf
  split
  · next m h => rw [h]; simp
  · next h => exact ⟨nofun, fun h' => absurd h' (h n)⟩

/-- What the engine issues is no `tick`, no `push` and no load (spec/20_memory.md R55). -/
theorem engine_issues {i : Instr} (h : mayIssue .engine i = true) :
    (∀ n, i ≠ .tick n) ∧ (∀ v, i ≠ .push v) ∧ isLoad i = false := by
  cases i <;> simp_all [mayIssue, issuers, isLoad]

/-- The presentation unit never ticks, polls or loads (spec/20_memory.md R56). -/
theorem presentation_issues {i : Instr} (h : mayIssue .presentation i = true) :
    (∀ n, i ≠ .tick n) ∧ i ≠ .hasPending ∧ isLoad i = false := by
  cases i <;> simp_all [mayIssue, issuers, isLoad]

/-! ## An engine step -/

theorem stepOk_cons {fresh : Bool} {r : Request} {rs : List Request} : stepOk fresh (r :: rs) = true ↔
    requestOk .engine r = true ∧ (isPoll r = true → fresh = true ∨ rs = []) ∧ stepOk false rs = true := by
  rw [stepOk]
  cases isPoll r <;> simp [and_assoc]

/-- The transactions that service a vector keep the contract in front of what is left of the step. -/
theorem stepOk_service {more : List Request} (h : stepOk false more = true) : ∀ {service : List Instr},
    service.all engineIssues = true → stepOk false (service.map .named ++ more) = true
  | [], _ => h
  | i :: service, hs => by
    simp only [List.all_cons, Bool.and_eq_true] at hs
    have hi := hs.1
    simp only [engineIssues, Bool.and_eq_true, bne_iff_ne, ne_eq] at hi
    simp only [List.map_cons, List.cons_append, stepOk_cons]
    exact ⟨by simp [requestOk, instrOf, hi, serviceOk], by simp [isPoll], stepOk_service h hs.2⟩

/-- A poll stands first or last in what is left of its step. -/
theorem stepOk_poll : ∀ {rs : List Request} {fresh : Bool} {k : Nat} {e : Bool} {service : List Instr},
    stepOk fresh rs = true → rs[k]? = some (.poll e service) → (fresh = true ∧ k = 0) ∨ k + 1 = rs.length
  | [], _, _, _, _, _, h => by simp at h
  | r :: rs, fresh, 0, e, service, h, hk => by
    simp only [List.getElem?_cons_zero, Option.some.injEq] at hk
    subst hk
    rcases (stepOk_cons.mp h).2.1 rfl with h | h
    · exact .inl ⟨h, rfl⟩
    · exact .inr (by simp [h])
  | r :: rs, fresh, k + 1, e, service, h, hk => by
    simp only [List.getElem?_cons_succ] at hk
    rcases stepOk_poll (stepOk_cons.mp h).2.2 hk with h | h
    · cases h.1
    · exact .inr (by simp only [List.length_cons]; omega)

/-! ## A scan -/

/-- Once a read of a scan is taken, the reads left are the last of the scan. -/
theorem scanLeft_cons {r : Request} {rs : List Request} (h : scanLeft (r :: rs) = true) :
    (∃ a, instrOf r = .ok (.readByte a)) ∧ scanLeft rs = true := by
  simp only [scanLeft, beq_iff_eq, List.map_cons] at h
  generalize hk : videoAddrs.length = n at *
  have hlen := congrArg List.length h
  simp only [List.length_cons, List.length_map, List.length_drop, hk] at hlen
  have hd : videoAddrs.drop (n - (rs.length + 1)) =
      videoAddrs[n - (rs.length + 1)]'(by omega) :: videoAddrs.drop (n - rs.length) := by
    rw [List.drop_eq_getElem_cons (by omega)]
    congr 2
    omega
  rw [List.length_cons, hd, List.map_cons, List.cons.injEq] at h
  refine ⟨⟨videoAddrs[n - (rs.length + 1)]'(by omega), ?_⟩, by simp only [scanLeft, beq_iff_eq, hk]; exact h.2⟩
  have h := h.1
  cases hi : instrOf r with
  | error e => rw [hi] at h; cases h
  | ok i => rw [hi] at h; injection h with h; rw [h]

/-! ## An order of holds -/

section Order

variable {due booted : Bool} {prev : Nat} {stage : Stage} {r : Request} {rs : List Request} {hs : List Hold}

theorem orderOk_none : orderOk due booted prev (⟨none, r :: rs, stage⟩ :: hs) = false := rfl

theorem orderOk_engine : orderOk due booted prev (⟨some .engine, r :: rs, stage⟩ :: hs) = true ↔
    due = false ∧ stage = .fresh ∧ stepOk true (r :: rs) = true ∧ orderOk true true prev hs = true := by
  rw [orderOk]
  simp [and_assoc]

theorem orderOk_source : orderOk due booted prev (⟨some .source, r :: rs, stage⟩ :: hs) = true ↔
    ∃ n, instrOf r = .ok (.tick n) ∧ due = true ∧ rs = [] ∧ prev ≤ n.toNat ∧ orderOk false true n.toNat hs = true := by
  rw [orderOk]
  simp only [← tickOf_eq_some]
  cases tickOf r <;> simp [and_assoc]

theorem orderOk_presentation : orderOk due booted prev (⟨some .presentation, r :: rs, stage⟩ :: hs) = true ↔
    presentationOk (stage == .fresh) r rs = true ∧ orderOk due true prev hs = true := by
  rw [orderOk]
  simp

theorem orderOk_loader : orderOk due booted prev (⟨some .loader, r :: rs, stage⟩ :: hs) = true ↔
    booted = false ∧ (r :: rs).all (requestOk .loader) = true ∧ orderOk due booted prev hs = true := by
  rw [orderOk]
  simp [and_assoc]

/-- The hold the next request is taken from, and the holds after it, keep the contract. -/
theorem orderOk_of_nextRequest {t : Taken} : ∀ {hs : List Hold}, orderOk due booted prev hs = true →
    nextRequest hs = some t → orderOk due booted prev (⟨t.agent, t.request :: t.more, t.stage⟩ :: t.rest) = true
  | [], _, h => by cases h
  | ⟨a, [], stage⟩ :: hs, ho, hn => orderOk_of_nextRequest (hs := hs) (by rw [orderOk] at ho; exact ho) hn
  | ⟨a, r :: rs, stage⟩ :: hs, ho, hn => by
    cases hn
    exact ho

end Order

/-! ## A state -/

/-- Between two engine steps a state keeps the contract as soon as its holds do. -/
theorem conforming_of_orderOk {s : State} (h : orderOk s.tickDue (s.started || s.booted) s.cycPrev.toNat s.holds = true) :
    Conforming s := by
  unfold Conforming
  split
  · trivial
  · next hd hs e =>
    rw [e] at h
    split
    · next hm =>
      obtain ⟨a, rs, stage⟩ := hd
      simp only [midStep, Bool.and_eq_true, beq_iff_eq, bne_iff_ne, ne_eq, Bool.not_eq_true', List.isEmpty_eq_false_iff] at hm
      obtain ⟨⟨rfl, hst⟩, hne⟩ := hm
      obtain ⟨r, rs, rfl⟩ := List.exists_cons_of_ne_nil hne
      exact absurd (orderOk_engine.mp h).2.1 hst
    · exact h

/-- A state that has taken a request of an engine step keeps the contract if what is left of the step and the holds to come do. -/
theorem conforming_of_resume {s : State} {stage : Stage} {more : List Request} {hs : List Hold}
    (hstarted : s.started = true) (hdue : s.tickDue = true) (hstage : stage = .begun ∨ stage = .served)
    (hholds : s.holds = resume (some .engine) stage more hs) (hmore : stepOk false more = true)
    (ho : orderOk true true s.cycPrev.toNat hs = true) : Conforming s := by
  cases more with
  | nil => exact conforming_of_orderOk (by rw [hdue, hstarted, hholds]; exact ho)
  | cons r rs =>
    unfold Conforming
    rw [hholds]
    simp only [resume]
    have hm : midStep ⟨some .engine, r :: rs, stage⟩ = true := by rcases hstage with rfl | rfl <;> rfl
    rw [if_pos hm]
    refine ⟨hstarted, hdue, ?_, ho⟩
    unfold midStepOk
    rcases hstage with rfl | rfl <;> simpa using hmore

end Sys2Proof.Machine
end

