-- ==== Sys2Proof/Laws/Decode.lean ====
section
/-! SUPPORT. The fields of a T40 word: what is put in is read back, and a word is its three fields; what the must-be-zero masks of
spec/30_encoding.md R73 say of a field; the seven address patterns of R75. -/

namespace Sys2Proof

/-! ## The three fields -/

theorem toNat_t40 (op : BitVec 8) (sel data : BitVec 16) :
    (t40 op sel data).toNat = op.toNat * 2 ^ 32 + sel.toNat * 2 ^ 16 + data.toNat := by
  have h1 := op.isLt; have h2 := sel.isLt; have h3 := data.isLt
  rw [t40, BitVec.toNat_setWidth, BitVec.toNat_append, BitVec.toNat_append,
    ← Nat.shiftLeft_add_eq_or_of_lt (by omega), ← Nat.shiftLeft_add_eq_or_of_lt (by omega)]
  simp only [Nat.shiftLeft_eq]
  omega

theorem toNat_opOf (w : BitVec 40) : (opOf w).toNat = w.toNat / 2 ^ 32 := by
  have := w.isLt
  simp only [opOf, BitVec.extractLsb', BitVec.toNat_ofNat, Nat.shiftRight_eq_div_pow]
  omega

theorem toNat_selOf (w : BitVec 40) : (selOf w).toNat = w.toNat / 2 ^ 16 % 2 ^ 16 := by
  simp only [selOf, BitVec.extractLsb', BitVec.toNat_ofNat, Nat.shiftRight_eq_div_pow]

theorem toNat_dataOf (w : BitVec 40) : (dataOf w).toNat = w.toNat % 2 ^ 16 := by
  simp [dataOf, BitVec.extractLsb', Nat.shiftRight_eq_div_pow]

@[simp] theorem opOf_t40 (op : BitVec 8) (sel data : BitVec 16) : opOf (t40 op sel data) = op := by
  apply BitVec.eq_of_toNat_eq
  have h1 := op.isLt; have h2 := sel.isLt; have h3 := data.isLt
  rw [toNat_opOf, toNat_t40]
  omega

@[simp] theorem selOf_t40 (op : BitVec 8) (sel data : BitVec 16) : selOf (t40 op sel data) = sel := by
  apply BitVec.eq_of_toNat_eq
  have h1 := op.isLt; have h2 := sel.isLt; have h3 := data.isLt
  rw [toNat_selOf, toNat_t40]
  omega

@[simp] theorem dataOf_t40 (op : BitVec 8) (sel data : BitVec 16) : dataOf (t40 op sel data) = data := by
  apply BitVec.eq_of_toNat_eq
  have h1 := op.isLt; have h2 := sel.isLt; have h3 := data.isLt
  rw [toNat_dataOf, toNat_t40]
  omega

/-- A T40 word is its three fields. -/
theorem t40_fields (w : BitVec 40) : t40 (opOf w) (selOf w) (dataOf w) = w := by
  apply BitVec.eq_of_toNat_eq
  have h := w.isLt
  rw [toNat_t40, toNat_opOf, toNat_selOf, toNat_dataOf]
  omega

/-- Masking a T40 word masks each of its fields. -/
theorem t40_and (op op' : BitVec 8) (sel sel' data data' : BitVec 16) :
    t40 op sel data &&& t40 op' sel' data' = t40 (op &&& op') (sel &&& sel') (data &&& data') := by
  simp only [t40, ← BitVec.setWidth_and, BitVec.and_append]

theorem t40_inj {op op' : BitVec 8} {sel sel' data data' : BitVec 16} :
    t40 op sel data = t40 op' sel' data' ↔ op = op' ∧ sel = sel' ∧ data = data' := by
  constructor
  · intro h
    exact ⟨by simpa using congrArg opOf h, by simpa using congrArg selOf h, by simpa using congrArg dataOf h⟩
  · rintro ⟨rfl, rfl, rfl⟩; rfl

theorem decodeT40_t40 (c : Params) (op : BitVec 8) (sel data : BitVec 16) :
    decodeT40 c (t40 op sel data) = decodeFields c op sel data := by
  simp [decodeT40]

/-! ## Bytes and latch bits in a field -/

@[simp] theorem lowField_inField (b : BitVec 8) : lowField (inField b) = b := by
  apply BitVec.eq_of_toNat_eq
  have := b.isLt
  simp [lowField, inField]
  omega

@[simp] theorem inField_and (b : BitVec 8) : inField b &&& 65280#16 = 0#16 := by
  decide +revert

/-- A mask of the top bits of a 16-bit value, as arithmetic: `x` with its low `k` bits cleared. -/
theorem toNat_and_top (x : BitVec 16) (k : Nat) (hk : k ≤ 16) :
    (x &&& BitVec.ofNat 16 (2 ^ 16 - 2 ^ k)).toNat = x.toNat / 2 ^ k * 2 ^ k := by
  have hx := x.isLt
  have hm : 2 ^ 16 - 2 ^ k < 2 ^ 16 := Nat.sub_lt (by decide) (Nat.two_pow_pos k)
  rw [BitVec.toNat_and, BitVec.toNat_ofNat, Nat.mod_eq_of_lt hm]
  apply Nat.eq_of_testBit_eq
  intro i
  have e : 2 ^ 16 - 2 ^ k = (2 ^ (16 - k) - 1) * 2 ^ k := by
    rw [Nat.sub_mul, ← Nat.pow_add, Nat.sub_add_cancel hk, Nat.one_mul]
  rw [Nat.testBit_and, e, Nat.testBit_mul_two_pow, Nat.testBit_mul_two_pow, Nat.testBit_two_pow_sub_one,
    Nat.testBit_div_two_pow]
  by_cases h : k ≤ i
  · by_cases h' : i - k < 16 - k
    · simp [h, h']
    · have : x.toNat.testBit i = false :=
        Nat.testBit_lt_two_pow (Nat.lt_of_lt_of_le hx (Nat.pow_le_pow_right (by decide) (by omega)))
      simp [h, h', this]
  · simp [h]

/-- When a mask of the top bits of a 16-bit value has a given value. -/
theorem and_top_eq (x y : BitVec 16) (k : Nat) (hk : k ≤ 16) :
    x &&& BitVec.ofNat 16 (2 ^ 16 - 2 ^ k) = y ↔ x.toNat / 2 ^ k * 2 ^ k = y.toNat := by
  rw [← toNat_and_top x k hk]
  exact ⟨congrArg BitVec.toNat, BitVec.eq_of_toNat_eq⟩

/-- A field whose upper byte must be zero is its lower byte. -/
theorem inField_lowField {x : BitVec 16} (h : x &&& 65280#16 = 0#16) : inField (lowField x) = x := by
  have h' := (and_top_eq x 0 8 (by decide)).mp h
  have hx := x.isLt
  apply BitVec.eq_of_toNat_eq
  simp [lowField, inField] at h' ⊢
  omega

/-- The bits above a port number are zero exactly where the number fits the port width. -/
theorem and_portMbz_eq_zero (c : Params) (p : Port) : p &&& portMbz c = 0#16 ↔ fits c p = true := by
  have hp := p.isLt
  simp only [fits, decide_eq_true_eq]
  by_cases hk : c.portWidth ≤ 16
  · have e : portMbz c = BitVec.ofNat 16 (2 ^ 16 - 2 ^ c.portWidth) := by
      apply BitVec.eq_of_toNat_eq
      have : 2 ^ c.portWidth ≤ 2 ^ 16 := Nat.pow_le_pow_right (by decide) hk
      have hpos := Nat.two_pow_pos c.portWidth
      rw [portMbz, BitVec.toNat_shiftLeft, BitVec.toNat_allOnes, BitVec.toNat_ofNat, Nat.shiftLeft_eq, Nat.sub_mul, Nat.one_mul,
        Nat.mod_eq_of_lt (show 2 ^ 16 - 2 ^ c.portWidth < 2 ^ 16 by omega)]
      obtain ⟨m, hm⟩ := Nat.exists_eq_add_of_le hpos
      rw [show 2 ^ 16 * 2 ^ c.portWidth - 2 ^ c.portWidth = (2 ^ 16 - 2 ^ c.portWidth) + 2 ^ 16 * (2 ^ c.portWidth - 1) by
        omega, Nat.add_mul_mod_self_left, Nat.mod_eq_of_lt (by omega)]
    rw [e, and_top_eq p 0#16 c.portWidth hk]
    rw [BitVec.toNat_ofNat, Nat.zero_mod, Nat.mul_eq_zero, or_iff_left (Nat.two_pow_pos _).ne', Nat.div_eq_zero_iff,
      or_iff_right (Nat.two_pow_pos _).ne']
  · have e : portMbz c = 0#16 := by
      rw [portMbz, BitVec.shiftLeft_eq_zero (by omega)]
    have : 2 ^ 16 ≤ 2 ^ c.portWidth := Nat.pow_le_pow_right (by decide) (by omega)
    simp only [e, BitVec.and_zero, true_iff]
    omega

/-- The device port numbers have `PORT_WIDTH` bits (spec/00_scope.md R5, R6). -/
theorem Params.Valid.fits_of_mem {c : Params} (h : c.Valid) {p : Port} (hp : p ∈ c.ports) : fits c p = true :=
  List.all_eq_true.mp h.1.2 p hp

@[simp] theorem latchFieldOf_latchSel (f : LatchField) (i : BitVec 3) : latchFieldOf (latchSel f i) = f := by
  cases f <;> decide +revert

@[simp] theorem latchIndexOf_latchSel (f : LatchField) (i : BitVec 3) : latchIndexOf (latchSel f i) = i := by
  cases f <;> decide +revert

@[simp] theorem latchSel_and (f : LatchField) (i : BitVec 3) : latchSel f i &&& 65520#16 = 0#16 := by
  cases f <;> decide +revert

@[simp] theorem all_and (x : BitVec 16) : x &&& 65535#16 = x := by
  have : 65535#16 = BitVec.allOnes 16 := by decide
  rw [this, BitVec.and_allOnes]

/-! ## The table of R73, row by row -/

section Rows

variable (c : Params) (sel data : BitVec 16)

theorem decodeFields_readByte : decodeFields c 0x00#8 sel data =
    if data = 0#16 then .ok (.readByte sel) else .error (.mustBeZero 0x00#8) := by
  simp [decodeFields, t40Rows]

theorem decodeFields_writeByte : decodeFields c 0x01#8 sel data =
    if data &&& 65280#16 = 0#16 then .ok (.writeByte sel (lowField data)) else .error (.mustBeZero 0x01#8) := by
  simp [decodeFields, t40Rows]

theorem decodeFields_loadByte : decodeFields c 0x02#8 sel data =
    if data &&& 65280#16 = 0#16 then .ok (.loadByte sel (lowField data)) else .error (.mustBeZero 0x02#8) := by
  simp [decodeFields, t40Rows]

theorem decodeFields_readWord : decodeFields c 0x03#8 sel data =
    if data = 0#16 then .ok (.readWord sel) else .error (.mustBeZero 0x03#8) := by
  simp [decodeFields, t40Rows]

theorem decodeFields_writeWord : decodeFields c 0x04#8 sel data = .ok (.writeWord sel data) := by
  simp [decodeFields, t40Rows]

theorem decodeFields_portIn : decodeFields c 0x08#8 sel data =
    if fits c sel = true ∧ data = 0#16 then .ok (portInRow c sel) else .error (.mustBeZero 0x08#8) := by
  simp [decodeFields, t40Rows, and_portMbz_eq_zero]

theorem decodeFields_portOut : decodeFields c 0x09#8 sel data =
    if fits c sel = true ∧ data &&& 65280#16 = 0#16 then .ok (portOutRow c sel (lowField data))
    else .error (.mustBeZero 0x09#8) := by
  simp [decodeFields, t40Rows, and_portMbz_eq_zero]

theorem decodeFields_push : decodeFields c 0x10#8 sel data =
    if sel = 0#16 ∧ data &&& 65280#16 = 0#16 then .ok (.push (lowField data)) else .error (.mustBeZero 0x10#8) := by
  simp [decodeFields, t40Rows]

theorem decodeFields_pop : decodeFields c 0x11#8 sel data =
    if sel = 0#16 ∧ data = 0#16 then .ok .pop else .error (.mustBeZero 0x11#8) := by
  simp [decodeFields, t40Rows]

theorem decodeFields_hasPending : decodeFields c 0x12#8 sel data =
    if sel = 0#16 ∧ data = 0#16 then .ok .hasPending else .error (.mustBeZero 0x12#8) := by
  simp [decodeFields, t40Rows]

theorem decodeFields_latchSet : decodeFields c 0x18#8 sel data =
    if sel &&& 65520#16 = 0#16 ∧ data = 0#16 then .ok (.latchSet (latchFieldOf sel) (latchIndexOf sel))
    else .error (.mustBeZero 0x18#8) := by
  simp [decodeFields, t40Rows]

theorem decodeFields_latchClear : decodeFields c 0x19#8 sel data =
    if sel &&& 65520#16 = 0#16 ∧ data = 0#16 then .ok (.latchClear (latchFieldOf sel) (latchIndexOf sel))
    else .error (.mustBeZero 0x19#8) := by
  simp [decodeFields, t40Rows]

end Rows

/-- The twelve values of `op` that name a transaction (R72). -/
def listedOps : List (BitVec 8) := (t40Rows params).map (·.op)

/-- The port width changes no `op`. -/
theorem ops_t40Rows (c : Params) : (t40Rows c).map (·.op) = listedOps := by simp [listedOps, t40Rows]

/-- The table of R72. -/
theorem mem_listedOps {op : BitVec 8} : op ∈ listedOps ↔ op = 0x00#8 ∨ op = 0x01#8 ∨ op = 0x02#8 ∨ op = 0x03#8 ∨ op = 0x04#8 ∨
    op = 0x08#8 ∨ op = 0x09#8 ∨ op = 0x10#8 ∨ op = 0x11#8 ∨ op = 0x12#8 ∨ op = 0x18#8 ∨ op = 0x19#8 := by
  simp [listedOps, t40Rows]

theorem decodeFields_reserved (c : Params) {op : BitVec 8} (h : op ∉ listedOps) (sel data : BitVec 16) :
    decodeFields c op sel data = .error (.reservedOp op) := by
  have : (t40Rows c).find? (fun r => r.op == op) = none := by
    simp only [List.find?_eq_none, beq_iff_eq]
    intro r hr e
    exact h (by rw [← e]; exact ops_t40Rows c ▸ List.mem_map_of_mem hr)
  simp [decodeFields, this]

/-! ## The address patterns of R75 -/

/-- The row an address selects, by its value (R75: the "addresses" column). -/
theorem decodeA16_eq (a : Addr) : decodeA16 a =
    if a.toNat ≤ 0x1FFF then .viewProg (a.extractLsb' 0 13)
    else if a.toNat ≤ 0x23FF then .viewWram (a.extractLsb' 0 10)
    else if a.toNat ≤ 0x27FF then .viewVram0 (a.extractLsb' 0 10)
    else if a.toNat ≤ 0x2FFF then .viewVram1 (a.extractLsb' 0 11)
    else if a.toNat ≤ 0x3FFF then .viewVram2 (a.extractLsb' 0 12)
    else if a.toNat ≤ 0x7FFF then .viewMirror0 (a.extractLsb' 0 14)
    else .viewMirror1 (a.extractLsb' 0 15) := by
  have ha := a.isLt
  have e13 := and_top_eq a 0x0000#16 13 (by decide)
  have e10 := and_top_eq a 0x2000#16 10 (by decide)
  have e10' := and_top_eq a 0x2400#16 10 (by decide)
  have e11 := and_top_eq a 0x2800#16 11 (by decide)
  have e12 := and_top_eq a 0x3000#16 12 (by decide)
  have e14 := and_top_eq a 0x4000#16 14 (by decide)
  simp only [Nat.reducePow, Nat.reduceSub, BitVec.toNat_ofNat, Nat.reduceMod] at e13 e10 e10' e11 e12 e14
  simp only [decodeA16, BitVec.ofNat_eq_ofNat, e13, e10, e10', e11, e12, e14]
  by_cases h0 : a.toNat ≤ 0x1FFF
  · rw [if_pos h0, if_pos (by omega)]
  rw [if_neg h0, if_neg (by omega)]
  by_cases h1 : a.toNat ≤ 0x23FF
  · rw [if_pos h1, if_pos (by omega)]
  rw [if_neg h1, if_neg (by omega)]
  by_cases h2 : a.toNat ≤ 0x27FF
  · rw [if_pos h2, if_pos (by omega)]
  rw [if_neg h2, if_neg (by omega)]
  by_cases h3 : a.toNat ≤ 0x2FFF
  · rw [if_pos h3, if_pos (by omega)]
  rw [if_neg h3, if_neg (by omega)]
  by_cases h4 : a.toNat ≤ 0x3FFF
  · rw [if_pos h4, if_pos (by omega)]
  rw [if_neg h4, if_neg (by omega)]
  by_cases h5 : a.toNat ≤ 0x7FFF
  · rw [if_pos h5, if_pos (by omega)]
  rw [if_neg h5, if_neg (by omega)]

/-- The value of the address a pattern spells. -/
theorem toNat_patternAddr {m n : Nat} (fixed : BitVec m) (free : BitVec n) (h : m + n = 16) :
    (patternAddr fixed free).toNat = fixed.toNat * 2 ^ n + free.toNat := by
  have h1 := (fixed ++ free).isLt
  rw [patternAddr, BitVec.toNat_setWidth, Nat.mod_eq_of_lt (by rw [← h]; exact h1), BitVec.toNat_append,
    ← Nat.shiftLeft_add_eq_or_of_lt free.isLt, Nat.shiftLeft_eq]

end Sys2Proof
end

