-- ==== Sys2Proof/Laws/PerInstr.lean ====
section
/-! SUPPORT. The family of lemmas made per instruction: what an instruction expands to (spec/30_encoding.md R83) is made of
transactions, each of which expands to itself and has exactly one word. -/

namespace Sys2Proof.Laws.Expansion

/-- Under every choice of the parameters, each part of the instruction's expansion is its own expansion and has one word, which
is the part's whole encoding. -/
def Statement (i : Instr) : Prop :=
  ∀ c : Params, ∀ j ∈ expand c i, expand c j = [j] ∧ ∃ w, encodeOne c j = some w ∧ encode c j = [w]

/-- A transaction that is not pseudo: it is its own only part. -/
theorem of_self {i : Instr} (h : ∀ c, expand c i = [i]) (hw : ∀ c, ∃ w, encodeOne c i = some w) : Statement i := by
  intro c j hj
  rw [h c, List.mem_singleton] at hj
  subst hj
  obtain ⟨w, hw⟩ := hw c
  exact ⟨h c, w, hw, by simp [encode, h c, hw]⟩

theorem mem_expandImage {j : Instr} : ∀ {base : Addr} {vs : List Byte}, j ∈ expandImage base vs → ∃ a v, j = .loadByte a v
  | _, [], h => absurd h List.not_mem_nil
  | base, v :: vs, h => by
    rcases List.mem_cons.mp h with rfl | h
    · exact ⟨base, v, rfl⟩
    · exact mem_expandImage h

theorem readByte (a : Addr) : Statement (.readByte a) := of_self (fun _ => rfl) fun _ => ⟨_, rfl⟩
theorem writeByte (a : Addr) (v : Byte) : Statement (.writeByte a v) := of_self (fun _ => rfl) fun _ => ⟨_, rfl⟩
theorem loadByte (a : Addr) (v : Byte) : Statement (.loadByte a v) := of_self (fun _ => rfl) fun _ => ⟨_, rfl⟩
theorem readWord (a : Addr) : Statement (.readWord a) := of_self (fun _ => rfl) fun _ => ⟨_, rfl⟩
theorem writeWord (a : Addr) (w : Word16) : Statement (.writeWord a w) := of_self (fun _ => rfl) fun _ => ⟨_, rfl⟩
theorem inA : Statement .inA := of_self (fun _ => rfl) fun _ => ⟨_, rfl⟩
theorem inB : Statement .inB := of_self (fun _ => rfl) fun _ => ⟨_, rfl⟩
theorem inShift : Statement .inShift := of_self (fun _ => rfl) fun _ => ⟨_, rfl⟩
theorem inWdg : Statement .inWdg := of_self (fun _ => rfl) fun _ => ⟨_, rfl⟩
theorem inUnk (p : Port) : Statement (.inUnk p) := of_self (fun _ => rfl) fun _ => ⟨_, rfl⟩
theorem outOffset (d : Byte) : Statement (.outOffset d) := of_self (fun _ => rfl) fun _ => ⟨_, rfl⟩
theorem outData (d : Byte) : Statement (.outData d) := of_self (fun _ => rfl) fun _ => ⟨_, rfl⟩
theorem outWdg (d : Byte) : Statement (.outWdg d) := of_self (fun _ => rfl) fun _ => ⟨_, rfl⟩
theorem outUnk (p : Port) (d : Byte) : Statement (.outUnk p d) := of_self (fun _ => rfl) fun _ => ⟨_, rfl⟩
theorem push (v : Byte) : Statement (.push v) := of_self (fun _ => rfl) fun _ => ⟨_, rfl⟩
theorem pop : Statement .pop := of_self (fun _ => rfl) fun _ => ⟨_, rfl⟩
theorem hasPending : Statement .hasPending := of_self (fun _ => rfl) fun _ => ⟨_, rfl⟩
theorem latchSet (f : LatchField) (i : BitVec 3) : Statement (.latchSet f i) := of_self (fun _ => rfl) fun _ => ⟨_, rfl⟩
theorem latchClear (f : LatchField) (i : BitVec 3) : Statement (.latchClear f i) :=
  of_self (fun _ => rfl) fun _ => ⟨_, rfl⟩
theorem tick (n : Count) : Statement (.tick n) := of_self (fun _ => rfl) fun _ => ⟨_, rfl⟩
theorem viewProg (x : BitVec 13) : Statement (.viewProg x) := of_self (fun _ => rfl) fun _ => ⟨_, rfl⟩
theorem viewWram (x : BitVec 10) : Statement (.viewWram x) := of_self (fun _ => rfl) fun _ => ⟨_, rfl⟩
theorem viewVram0 (x : BitVec 10) : Statement (.viewVram0 x) := of_self (fun _ => rfl) fun _ => ⟨_, rfl⟩
theorem viewVram1 (x : BitVec 11) : Statement (.viewVram1 x) := of_self (fun _ => rfl) fun _ => ⟨_, rfl⟩
theorem viewVram2 (x : BitVec 12) : Statement (.viewVram2 x) := of_self (fun _ => rfl) fun _ => ⟨_, rfl⟩
theorem viewMirror0 (x : BitVec 14) : Statement (.viewMirror0 x) := of_self (fun _ => rfl) fun _ => ⟨_, rfl⟩
theorem viewMirror1 (x : BitVec 15) : Statement (.viewMirror1 x) := of_self (fun _ => rfl) fun _ => ⟨_, rfl⟩

theorem loadImage (base : Addr) (bytes : List Byte) : Statement (.loadImage base bytes) := by
  intro c j hj
  obtain ⟨a, v, rfl⟩ := mem_expandImage hj
  exact ⟨rfl, _, rfl, rfl⟩

theorem loadRom (b0 b1 b2 b3 : List Byte) : Statement (.loadRom b0 b1 b2 b3) := by
  intro c j hj
  simp only [expand, List.mem_append] at hj
  obtain ⟨a, v, rfl⟩ : ∃ a v, j = .loadByte a v := by
    rcases hj with ((h | h) | h) | h <;> exact mem_expandImage h
  exact ⟨rfl, _, rfl, rfl⟩

theorem frameScan : Statement .frameScan := by
  intro c j hj
  obtain ⟨a, -, rfl⟩ := List.mem_map.mp hj
  exact ⟨rfl, _, rfl, rfl⟩

theorem press (n : InputName) : Statement (.press n) := by
  intro c j hj
  obtain rfl := List.mem_singleton.mp hj
  exact ⟨rfl, _, rfl, rfl⟩

theorem release (n : InputName) : Statement (.release n) := by
  intro c j hj
  obtain rfl := List.mem_singleton.mp hj
  exact ⟨rfl, _, rfl, rfl⟩

end Sys2Proof.Laws.Expansion
end

