-- ==== Sys2Proof/Tests/Slice0.lean ====
section
/-! SUPPORT. Tests. Every expected result is taken from the spec: spec/95_test_vectors.md where a section is named, else the rule
named. Then, for every statement with hypotheses, a state and operands that meet all of them. -/

namespace Sys2Proof.Tests

open Sys2Proof Sys2Proof.Machine

/-- The state the vectors start from: "the reset state" (spec/95_test_vectors.md, conventions). -/
abbrev s0 : State := State.reset

/-- A state whose next requests are those of one hold of one agent. -/
def given (s : State) (agent : Option Agent) (requests : List Request) : State := { s with holds := [⟨agent, requests, .fresh⟩] }

/-- A state with the two latch fields given. -/
def latched (la lb : Byte) : State := { s0 with la := la, lb := lb }

/-- A state with the shift register and the offset given. -/
def shifted (sr : BitVec 16) (so : BitVec 3) : State := { s0 with sr := sr, so := so }

/-- A state with the queue and the last count given. -/
def queued (iq : List Byte) (prev : Count) : State := { s0 with iq := iq, cycPrev := prev }

/-- What a transaction answers. -/
def responseOf (o : Host.Outcome State Fault Refusal) : Option Response :=
  match o with
  | .next t => some t.response
  | _ => none

/-! ## Parameters and well-formedness -/

/-- The defaults satisfy the constraints of R6. -/
theorem test_params_valid : params.Valid := by decide

/-- R77: port 3 is a read device, so it is no unrecognised read port; 4 is one. -/
theorem test_wellFormed_inUnk : ¬ WellFormed (.inUnk 3) ∧ WellFormed (.inUnk 4) := by decide

/-- R5: with `PORT_WIDTH` = 8 there is no port 256; with a `PORT_WIDTH` of 9 there is. -/
theorem test_wellFormed_portWidth : ¬ WellFormed (.inUnk 256) ∧ ¬ WellFormed (.outUnk 256 0) ∧
    wellFormed { params with portWidth := 9 } (.inUnk 256) = true := by decide

/-- R73: the port field is as wide as `PORT_WIDTH`. -/
theorem test_decode_portWidth :
    decode { params with portWidth := 9 } (.t40 0x08_01FF_0000) = .ok (.inUnk 0x1FF) ∧
    decode { params with portWidth := 9 } (.t40 0x08_0200_0000) = .error (.mustBeZero 0x08) ∧
    decode { params with portWidth := 16 } (.t40 0x09_FFFF_0005) = .ok (.outUnk 0xFFFF 5) := by decide

/-- R78: port 4 is a write device, so it is no unrecognised write port; 3 is one. -/
theorem test_wellFormed_outUnk : ¬ WellFormed (.outUnk 4 0x77) ∧ WellFormed (.outUnk 3 0x77) := by decide

/-- R83: the blocks of a `load_rom` have 2048 bytes each; each of the four is checked. -/
theorem test_wellFormed_loadRom (b : List Byte) (hb : b.length = 2048) :
    WellFormed (.loadRom b b b b) ∧ ¬ WellFormed (.loadRom [] b b b) ∧ ¬ WellFormed (.loadRom b [1] b b) ∧
      ¬ WellFormed (.loadRom b b [1, 2] b) ∧ ¬ WellFormed (.loadRom b b b (0 :: b)) := by
  simp [WellFormed, wellFormed, blockSize, hb]

/-! ## Decoding: words written out from R71 to R78 and R75 (section 2.11) -/

theorem test_decode_memory :
    decodeTableWord 40 0x00_2000_0000 = some (.readByte 0x2000) ∧
    decodeTableWord 40 0x01_2400_00FF = some (.writeByte 0x2400 0xFF) ∧
    decodeTableWord 40 0x02_0000_00C3 = some (.loadByte 0x0000 0xC3) ∧
    decodeTableWord 40 0x03_FFFF_0000 = some (.readWord 0xFFFF) ∧
    decodeTableWord 40 0x04_23FF_1234 = some (.writeWord 0x23FF 0x1234) := by decide

theorem test_decode_portIn :
    decodeTableWord 40 0x08_0001_0000 = some .inA ∧ decodeTableWord 40 0x08_0002_0000 = some .inB ∧
    decodeTableWord 40 0x08_0003_0000 = some .inShift ∧ decodeTableWord 40 0x08_0006_0000 = some .inWdg ∧
    decodeTableWord 40 0x08_0007_0000 = some (.inUnk 7) ∧ decodeTableWord 40 0x08_0004_0000 = some (.inUnk 4) := by decide

theorem test_decode_portOut :
    decodeTableWord 40 0x09_0002_00FB = some (.outOffset 0xFB) ∧ decodeTableWord 40 0x09_0004_00AB = some (.outData 0xAB) ∧
    decodeTableWord 40 0x09_0006_0000 = some (.outWdg 0) ∧ decodeTableWord 40 0x09_0001_0000 = some (.outUnk 1 0) := by decide

theorem test_decode_queue_and_latch :
    decodeTableWord 40 0x10_0000_00CF = some (.push 0xCF) ∧ decodeTableWord 40 0x11_0000_0000 = some .pop ∧
    decodeTableWord 40 0x12_0000_0000 = some .hasPending ∧ decodeTableWord 40 0x18_0000_0000 = some (.latchSet .A 0) ∧
    decodeTableWord 40 0x18_000F_0000 = some (.latchSet .B 7) ∧ decodeTableWord 40 0x19_0008_0000 = some (.latchClear .B 0) ∧
    decodeTableWord 64 0x0000000000014582 = some (.tick 83330) := by decide

/-- R75, with the boundary addresses of its "addresses" column. -/
theorem test_decode_views :
    decodeTableWord 16 0x0000 = some (.viewProg 0) ∧ decodeTableWord 16 0x1FFF = some (.viewProg 0x1FFF) ∧
    decodeTableWord 16 0x23FF = some (.viewWram 0x3FF) ∧ decodeTableWord 16 0x2400 = some (.viewVram0 0) ∧
    decodeTableWord 16 0x2800 = some (.viewVram1 0) ∧ decodeTableWord 16 0x3FFF = some (.viewVram2 0xFFF) ∧
    decodeTableWord 16 0x4000 = some (.viewMirror0 0) ∧ decodeTableWord 16 0xFFFF = some (.viewMirror1 0x7FFF) := by decide

theorem test_decode_reserved_op :
    decode params (.t40 0x05_0000_0000) = .error (.reservedOp 0x05) ∧
    decode params (.t40 0x07_FFFF_FFFF) = .error (.reservedOp 0x07) ∧
    decode params (.t40 0x0A_0000_0000) = .error (.reservedOp 0x0A) ∧
    decode params (.t40 0x13_0000_0000) = .error (.reservedOp 0x13) ∧
    decode params (.t40 0x1A_0000_0000) = .error (.reservedOp 0x1A) ∧
    decode params (.t40 0xFF_FFFF_FFFF) = .error (.reservedOp 0xFF) := by decide

theorem test_decode_must_be_zero :
    decode params (.t40 0x00_2000_0001) = .error (.mustBeZero 0x00) ∧
    decode params (.t40 0x01_2400_01FF) = .error (.mustBeZero 0x01) ∧
    decode params (.t40 0x08_0103_0000) = .error (.mustBeZero 0x08) ∧
    decode params (.t40 0x08_0003_0001) = .error (.mustBeZero 0x08) ∧
    decode params (.t40 0x09_0004_01AB) = .error (.mustBeZero 0x09) ∧
    decode params (.t40 0x10_0001_00CF) = .error (.mustBeZero 0x10) ∧
    decode params (.t40 0x11_0000_0001) = .error (.mustBeZero 0x11) ∧
    decode params (.t40 0x18_0010_0000) = .error (.mustBeZero 0x18) := by decide

/-- The T40 columns of sections 2.2 and 2.9, and R95: an image is one `load_byte` word per byte. -/
theorem test_encode :
    encode params (.loadByte 0x8001 0x42) = [.t40 0x02_8001_0042] ∧
    encode params (.latchClear .A 4) = [.t40 0x19_0004_0000] ∧
    encode params (.press .p1Right) = [.t40 0x18_0006_0000] ∧
    encode params (.loadImage 0xFFFF [1, 2]) = [.t40 0x02_FFFF_0001, .t40 0x02_0000_0002] ∧
    encode params (.tick 4) = [.k64 4] := by decide

/-! ## The address decoder (section 2.1) -/

theorem test_region :
    region 0x1FFF = (.PROG, 0x1FFF) ∧ region 0x2000 = (.WRAM, 0) ∧ region 0x23FF = (.WRAM, 0x3FF) ∧
    region 0x2400 = (.VRAM, 0) ∧ region 0x2FFF = (.VRAM, 0xBFF) ∧ region 0x3FFF = (.VRAM, 0x1BFF) ∧
    region 0x4000 = (.WRAM, 0) ∧ region 0x7FFF = (.WRAM, 0x3FF) ∧ region 0xBEEF = (.WRAM, 0x2EF) ∧
    region 0xFD23 = (.WRAM, 0x123) ∧ region 0xFFFF = (.WRAM, 0x3FF) := by decide

theorem test_views_answer :
    exec (.viewProg 0x7FF) s0 = .next (s0.answer (.place .PROG 0x7FF)) ∧
    exec (.viewWram 0x123) s0 = .next (s0.answer (.place .WRAM 0x123)) ∧
    exec (.viewVram0 0x3FF) s0 = .next (s0.answer (.place .VRAM 0x3FF)) ∧
    exec (.viewVram1 0x7FF) s0 = .next (s0.answer (.place .VRAM 0xBFF)) ∧
    exec (.viewVram2 0xFFF) s0 = .next (s0.answer (.place .VRAM 0x1BFF)) ∧
    exec (.viewMirror0 0x2123) s0 = .next (s0.answer (.place .WRAM 0x123)) ∧
    exec (.viewMirror1 0x3EEF) s0 = .next (s0.answer (.place .WRAM 0x2EF)) := ⟨rfl, rfl, rfl, rfl, rfl, rfl, rfl⟩

/-! ## Memory transactions (sections 2.2 to 2.4) -/

theorem test_readByte : exec (.readByte 0xFFFF) { s0 with wram := [(0x3FF, 0x80)] } =
    .next { s0 with wram := [(0x3FF, 0x80)], response := .byte 0x80 } := rfl

theorem test_writeByte :
    exec (.writeByte 0x4400 0x77) s0 = .next { s0 with wram := [(0, 0x77)] } ∧
    exec (.writeByte 0x1000 0xEE) s0 = .next s0 := ⟨rfl, rfl⟩

/-- Writing zero is a write: the entry goes, and the other entries stay in order. -/
theorem test_writeByte_zero : exec (.writeByte 0x2001 0x00) { s0 with wram := [(0, 5), (1, 0x42), (2, 6)] } =
    .next { s0 with wram := [(0, 5), (2, 6)] } := rfl

theorem test_loadByte :
    exec (.loadByte 0x1000 0xEE) s0 = .next { s0 with prog := [(0x1000, 0xEE)] } ∧
    exec (.loadByte 0x8001 0x42) s0 = .next { s0 with wram := [(1, 0x42)] } := ⟨rfl, rfl⟩

theorem test_readWord :
    exec (.readWord 0x2001) { s0 with wram := [(0, 0xEF), (1, 0xBE)] } =
      .next { s0 with wram := [(0, 0xEF), (1, 0xBE)], response := .word 0x00BE } ∧
    responseOf (exec (.readWord 0xFFFF) { s0 with prog := [(0, 0x77)], wram := [(0x3FF, 0xFE)] }) = some (.word 0x77FE) :=
  ⟨rfl, rfl⟩

theorem test_writeWord :
    exec (.writeWord 0x1FFF 0xBEEF) s0 = .next { s0 with wram := [(0, 0xBE)] } ∧
    exec (.writeWord 0x3FFF 0xA55A) s0 = .next { s0 with wram := [(0, 0xA5)], vram := [(0x1BFF, 0x5A)] } ∧
    exec (.writeWord 0x43FF 0x0102) s0 = .next { s0 with wram := [(0, 0x01), (0x3FF, 0x02)] } ∧
    exec (.writeWord 0xFFFF 0xCAFE) s0 = .next { s0 with wram := [(0x3FF, 0xFE)] } := ⟨rfl, rfl, rfl, rfl⟩

theorem test_loadImage :
    exec (.loadImage 0x1FFE [0xA1, 0xA2, 0xA3, 0xA4]) s0 =
      .next { s0 with prog := [(0x1FFE, 0xA1), (0x1FFF, 0xA2)], wram := [(0, 0xA3), (1, 0xA4)] } ∧
    exec (.loadImage 0xFFFE [1, 2, 3, 4]) s0 =
      .next { s0 with prog := [(0, 3), (1, 4)], wram := [(0x3FE, 1), (0x3FF, 2)] } := ⟨rfl, rfl⟩

/-- R183: the four offsets (blocks cut to one byte; `exec` does not look at their length). -/
theorem test_loadRom : exec (.loadRom [0x11] [0x22] [0x33] [0x44]) s0 =
    .next { s0 with prog := [(0, 0x11), (0x800, 0x22), (0x1000, 0x33), (0x1800, 0x44)] } := rfl

/-- Section 2.4: the scan has 7168 bytes and starts with `VRAM[0]`; working memory does not appear in it. -/
theorem test_frameScan : (frameBytes { s0 with vram := [(0, 0x81)], wram := [(0, 0x22), (0x3FF, 0x11)] }).take 2 = [0x81, 0] ∧
    (frameBytes s0).length = 7168 := ⟨rfl, by simp [frameBytes, videoAddrs]⟩

/-- Section 2.4: the last byte of the scan is that of 0x3FFF. -/
theorem test_videoAddrs_last : videoAddrs.getLast? = some 0x3FFF := by
  simp [videoAddrs, List.getLast?_map, List.getLast?_range']

/-! ## Ports and the shift register (sections 2.5 to 2.7 and 3) -/

theorem test_inA :
    exec .inA (latched 0x15 0) = .next { latched 0x14 0 with response := .byte 0x1D } ∧
    exec .inA (latched 0xFF 0) = .next { latched 0xFE 0 with response := .byte 0xFF } := ⟨rfl, rfl⟩

/-- The two rows with a `COIN_MASK` that is not the default. -/
theorem test_inputA_other_mask :
    inputA { params with coinMask := 4 } (latched 1 0) = { latched 1 0 with response := .byte 0x09 } ∧
    inputA { params with coinMask := 4, statusA := 0 } (latched 5 0) = { latched 1 0 with response := .byte 5 } := ⟨rfl, rfl⟩

theorem test_inB : exec .inB (latched 1 0x41) = .next { latched 1 0x41 with response := .byte 0x41 } := rfl

/-- The table of R113 for `SR` = 0x3412. -/
theorem test_shiftWindow : (List.range 8).map (fun o => shiftWindow params 0x3412 (BitVec.ofNat 3 o)) =
    [0x34, 0x68, 0xD0, 0xA0, 0x41, 0x82, 0x04, 0x09] := by decide

/-- Section 3: `SR` = 0xABCD under the other admissible value, `SHIFT_ANCHOR` = 10. -/
theorem test_shiftWindow_anchor10 :
    (List.range 8).map (fun o => shiftWindow { params with shiftAnchor := 10 } 0xABCD (BitVec.ofNat 3 o)) =
      [0x2A, 0x55, 0xAB, 0x57, 0xAF, 0x5E, 0xBC, 0x79] := by decide

theorem test_inShift : exec .inShift (shifted 0x5634 3) = .next { shifted 0x5634 3 with response := .byte 0xB1 } := rfl

/-- A watchdog read changes no item of the block and emits no diagnostic; nothing is said of its byte (R114). -/
theorem test_inWdg : ∃ v t, exec .inWdg (latched 0x15 2) = .next t ∧ t.toBlock = (latched 0x15 2).toBlock ∧ t.diag = none ∧
    t.response = .byte v := ⟨_, _, rfl, rfl, rfl, rfl⟩

theorem test_inUnk : exec (.inUnk 4) (latched 1 0) =
    .next { latched 1 0 with response := .byte 0xFF, diag := some (.unknownIn 4) } := rfl

theorem test_outOffset :
    exec (.outOffset 0xF8) (shifted 0x1234 7) = .next (shifted 0x1234 0) ∧
    exec (.outOffset 0x0B) (shifted 0x1234 0) = .next (shifted 0x1234 3) := ⟨rfl, rfl⟩

theorem test_outData : exec (.outData 0x56) (shifted 0x3412 4) = .next (shifted 0x5634 4) := rfl

theorem test_outWdg : exec (.outWdg 0xA5) (shifted 0xABCD 3) = .next (shifted 0xABCD 3) := rfl

theorem test_outUnk : exec (.outUnk 3 0x77) (shifted 0xABCD 3) =
    .next { shifted 0xABCD 3 with diag := some (.unknownOut 3 0x77) } := rfl

/-! ## The interrupt queue and `tick` (sections 2.8 and 2.10) -/

theorem test_push : exec (.push 0xCF) (queued [0xCF, 0xD7] 0) = .next (queued [0xCF, 0xD7, 0xCF] 0) := rfl

theorem test_push_full : pushVectors { params with queueDepth := some 2 } (queued [0xCF, 0xD7] 0) [0xCF] =
    .refused .queueFull := rfl

theorem test_pop :
    exec .pop (queued [0xCF, 0xD7, 0xCF] 0) = .next { queued [0xD7, 0xCF] 0 with response := .byte 0xCF } ∧
    exec .pop s0 = .fault .popEmpty := ⟨rfl, rfl⟩

theorem test_hasPending :
    exec .hasPending s0 = .next { s0 with response := .bit false } ∧
    exec .hasPending (queued [0xCF] 0) = .next { queued [0xCF] 0 with response := .bit true } := ⟨rfl, rfl⟩

theorem test_tick :
    exec (.tick 70000) (queued [] 30000) = .next (queued [0xD7, 0xCF, 0xD7] 70000) ∧
    exec (.tick 16665) (queued [] 0) = .next (queued [] 16665) ∧
    exec (.tick 16666) (queued [0xD7] 0) = .next (queued [0xD7, 0xCF] 16666) ∧
    exec (.tick 39999) (queued [] 40000) = .refused .countDecreased := ⟨rfl, rfl, rfl, rfl⟩

/-- The row with `HALF_FRAME_CYCLES` = 4. -/
theorem test_observe_half_frame_4 :
    observe { params with halfFrameCycles := 4 } (queued [] 8) 17 = .next (queued [0xCF, 0xD7] 17) := rfl

/-! ## The input latch (section 2.9) -/

theorem test_latchSet :
    exec (.latchSet .A 7) (latched 0x11 0x40) = .next (latched 0x91 0x40) ∧
    exec (.latchSet .B 0) (latched 0x11 0x40) = .next (latched 0x11 0x41) := ⟨rfl, rfl⟩

theorem test_latchClear :
    exec (.latchClear .A 4) (latched 0x11 0x81) = .next (latched 0x01 0x81) ∧
    exec (.latchClear .B 0) (latched 0x11 0x81) = .next (latched 0x11 0x80) := ⟨rfl, rfl⟩

theorem test_press :
    exec (.press .start1p) (latched 0x70 0) = .next (latched 0x74 0) ∧
    exec (.press .start2p) (latched 0x74 0) = .next (latched 0x76 0) := ⟨rfl, rfl⟩

theorem test_release : exec (.release .p1Fire) (latched 0x77 0) = .next (latched 0x67 0) := rfl

/-! ## Steps -/

theorem test_step_runs_the_word : step (s0.withFetchWord 40 0x04_23FF_1234) =
    .next { s0 with wram := [(0x3FF, 0x34)], vram := [(0, 0x12)] } := rfl

theorem test_step_tick : step (s0.withFetchWord 64 40000) = .next (queued [0xCF, 0xD7] 40000) := rfl

/-- R74: an invalid word is refused. -/
theorem test_step_invalid : step (s0.withFetchWord 40 0x11_0000_0001) = .refused (.invalidWord (.mustBeZero 0x11)) := rfl

/-- R160, R161: after an enabled poll of a queue that holds a vector one `pop` is next and then the service, in the same hold;
after a disabled one the hold goes on. -/
theorem test_step_poll :
    step (given (queued [0xCF] 0) (some .engine) [.poll true [.writeWord 0x23FE 0x100], .named .inB]) =
      .next { queued [0xCF] 0 with response := .bit true, started := true, booted := true, tickDue := true, holds :=
        [⟨some .engine, [.named .pop, .named (.writeWord 0x23FE 0x100), .named .inB], .popDue⟩] } ∧
    step (given (queued [0xCF] 0) (some .engine) [.poll false [], .named .inB]) =
      .next { queued [0xCF] 0 with response := .bit true, started := true, booted := true, tickDue := true, holds :=
        [⟨some .engine, [.named .inB], .begun⟩] } :=
  ⟨rfl, rfl⟩

/-- R160: "At most one `pop` per step". With two vectors pending, the second poll of a step leads to no `pop`. -/
theorem test_one_pop_per_step :
    (stepsFrom 3 (given (queued [0xCF, 0xD7] 0) (some .engine) [.poll true [], .poll true []])).map (fun t => (t.iq, t.holds)) =
      some ([0xD7], []) := by decide

/-- R156, R164 (d): an engine step makes a `tick` due, and the `tick` makes it done. -/
theorem test_tickDue :
    (stepsFrom 1 (given s0 (some .engine) [.named (.readByte 0)])).map (·.tickDue) = some true ∧
    (stepsFrom 1 (given { s0 with tickDue := true } (some .source) [.named (.tick 4)])).map (·.tickDue) = some false := by
  decide

/-- R184, U9: the loader's write before the start is done, after it it is refused. -/
theorem test_step_load_after_start :
    step (given s0 (some .loader) [.named (.loadByte 0 0xC3)]) = .next { s0 with prog := [(0, 0xC3)] } ∧
    step (given { s0 with started := true } (some .loader) [.named (.loadByte 0 0xC3)]) = .refused .loadAfterStart :=
  ⟨rfl, rfl⟩

/-- R184 refuses a load after the engine's start alone: after a press the load is done, and the boot is over. -/
theorem test_step_load_after_press : (stepsFrom 2 { s0 with holds := [⟨some .presentation, [.named (.press .p1Fire)], .fresh⟩,
    ⟨some .loader, [.named (.loadByte 0 0xC3)], .fresh⟩] }).map (fun t => (t.prog, t.started, t.booted)) =
      some ([(0, 0xC3)], false, true) := by decide

/-- Program P6, its fourth line. -/
theorem test_step_pop_empty : step (given (queued [] 16666) (some .engine) [.word (.t40 0x11_0000_0000)]) =
    .fault .popEmpty := rfl

/-- With nothing to do the block waits. -/
theorem test_step_idle : step s0 = .next s0 := rfl

/-! ## The textual form: lines of R82 -/

theorem test_text :
    parseLine params "read_byte   0x2000          ; -> 0x00" = some (some .engine, .named (.readByte 0x2000)) ∧
    parseLine params "port_out    4, 0x12" = some (some .engine, .named (.outData 0x12)) ∧
    parseLine params "has_pending                 ; -> 1" = some (some .engine, .named .hasPending) ∧
    parseLine params "latch_clear B, 7" = some (some .presentation, .named (.latchClear .B 7)) ∧
    parseLine params "tick        16666" = some (some .source, .named (.tick 16666)) := by decide

/-- A letter names the agent; a short mnemonic is an equal; a pseudo-transaction has its list. -/
theorem test_text_letters :
    parseLine params "P: RB 0x2400" = some (some .presentation, .named (.readByte 0x2400)) ∧
    parseLine params "L:load_image 0x1FFE, 0xAA 0xBB" = some (some .loader, .named (.loadImage 0x1FFE [0xAA, 0xBB])) ∧
    parseLine params "press p1_fire" = some (some .presentation, .named (.press .p1Fire)) ∧
    parseLine params "write_byte 0x2400, 0x1FF" = none := by decide

/-! ## Witnesses: the hypotheses of the statements can be met, at the ends of their ranges -/

/-- The reset stores are in canonical form. -/
theorem reset_storesOk : StoresOk s0 := fun st => by cases st <;> decide

/-- A request that is taken from a hold of several. -/
abbrev taken (r : Request) : Taken := ⟨some .engine, r, .fresh, [.named .inB], []⟩

/-- The state the request `taken r` is taken from. -/
abbrev asking (r : Request) : State := given s0 (some .engine) [r, .named .inB]

theorem witness_DecodeOfEncodeIsTheExpansion : params.Valid ∧ wellFormed params (.inUnk 255) = true ∧
    wellFormed params (.outUnk 0 0xFF) = true := by decide

theorem witness_EncodeOfDecodeIsTheWord : params.Valid ∧ decode params (.t40 0x08_00FF_0000) = .ok (.inUnk 255) ∧
    decode params (.k64 0xFFFFFFFFFFFFFFFF) = .ok (.tick 0xFFFFFFFFFFFFFFFF) := by decide

theorem witness_WordMatchingARowIsItsTransaction : params.portWidth = 8 ∧
    (0x00_FFFF_0000#40 &&& 0xFF0000FFFF = 0x0000000000) ∧ (0x01_FFFF_00FF#40 &&& 0xFF0000FF00 = 0x0100000000) ∧
    (0x02_FFFF_00FF#40 &&& 0xFF0000FF00 = 0x0200000000) ∧ (0x03_FFFF_0000#40 &&& 0xFF0000FFFF = 0x0300000000) ∧
    (0x04_FFFF_FFFF#40 &&& 0xFF00000000 = 0x0400000000) ∧ (0x08_00FF_0000#40 &&& 0xFFFF00FFFF = 0x0800000000) ∧
    (0x09_00FF_00FF#40 &&& 0xFFFF00FF00 = 0x0900000000) ∧ (0x10_0000_00FF#40 &&& 0xFFFFFFFF00 = 0x1000000000) ∧
    (0x11_0000_0000#40 &&& 0xFFFFFFFFFF = 0x1100000000) ∧ (0x12_0000_0000#40 &&& 0xFFFFFFFFFF = 0x1200000000) ∧
    (0x18_000F_0000#40 &&& 0xFFFFF0FFFF = 0x1800000000) ∧ (0x19_000F_0000#40 &&& 0xFFFFF0FFFF = 0x1900000000) := by decide

/-- Also with the widest port numbers: 256 is too wide by default, and 65535 is not where `PORT_WIDTH` is 16. -/
theorem witness_PortReadReachesItsDevice : params.Valid ∧ { params with portWidth := 16 }.Valid ∧
    (4 ≠ params.portInA ∧ 4 ≠ params.portInB ∧ 4 ≠ params.portShiftRead ∧ 4 ≠ params.portWdgR) ∧
    (255 : Port).toNat < 2 ^ params.portWidth ∧ 2 ^ params.portWidth ≤ (256 : Port).toNat ∧
    255 ≠ params.portInA ∧ 255 ≠ params.portInB ∧ 255 ≠ params.portShiftRead ∧ 255 ≠ params.portWdgR := by decide

theorem witness_PortWriteReachesItsDevice : params.Valid ∧
    (255 : Port).toNat < 2 ^ params.portWidth ∧ 2 ^ params.portWidth ≤ (256 : Port).toNat ∧
    (3 ≠ params.portShiftOffset ∧ 3 ≠ params.portShiftData ∧ 3 ≠ params.portWdgW) ∧
    0 ≠ params.portShiftOffset ∧ 0 ≠ params.portShiftData ∧ 0 ≠ params.portWdgW := by decide

theorem witness_StepRunsTheDecodedWord : let w : TWord := .t40 0x02_0000_00C3
    nextRequest (asking (.word w)).holds = some (taken (.word w)) ∧ (taken (.word w)).request = .word w ∧
      decode params w = .ok (.loadByte 0 0xC3) ∧ (isLoad (.loadByte 0 0xC3) = true → (asking (.word w)).started = false) := by
  decide

theorem witness_StepRunsTheNamedTransaction :
    nextRequest (asking (.named .frameScan)).holds = some (taken (.named .frameScan)) ∧ WellFormed .frameScan ∧
      nextRequest (asking (.named (.inUnk 3))).holds = some (taken (.named (.inUnk 3))) ∧ ¬ WellFormed (.inUnk 3) := by
  decide

theorem witness_InvalidWordIsRefused : let w := 0x1A_0000_0000#40; let w' := 0x08_0103_0000#40
    nextRequest (asking (.word (.t40 w))).holds = some (taken (.word (.t40 w))) ∧
      w.extractLsb' 32 8 ∉ [0x00#8, 0x01, 0x02, 0x03, 0x04, 0x08, 0x09, 0x10, 0x11, 0x12, 0x18, 0x19] ∧
      nextRequest (asking (.word (.t40 w'))).holds = some (taken (.word (.t40 w'))) ∧
      w'.extractLsb' 32 8 = 0x08 ∧ w' &&& 0x00FF00FFFF ≠ 0 := by decide

theorem witness_LoadAfterStartIsRefused : let r : Request := .named (.loadImage 0xFFFF [1])
    nextRequest ({ asking r with started := true } : State).holds = some (taken r) ∧
      instrOf r = .ok (.loadImage 0xFFFF [1]) ∧ isLoad (.loadImage 0xFFFF [1]) = true := by decide

theorem witness_PollIssuesOnePopWhenPendingAndEnabled :
    nextRequest ({ asking (.poll true [.pop]) with iq := [0xCF] } : State).holds = some (taken (.poll true [.pop])) ∧
      (taken (.poll true [])).stage = .fresh ∧
      nextRequest [⟨some .engine, [.poll true [], .named .inB], .served⟩] =
        some { taken (.poll true []) with stage := .served } ∧
      nextRequest (asking (.poll false [])).holds = some (taken (.poll false [])) := by decide

theorem witness_RequestsAreTakenInTheTotalOrder :
    (step s0 = .next s0 ∧ flat s0.holds = []) ∧
    (∃ t, step (asking (.poll true [])) = .next t) ∧
      flat (asking (.poll true [])).holds = (some .engine, .poll true []) :: [(some .engine, .named .inB)] :=
  ⟨⟨rfl, rfl⟩, ⟨_, rfl⟩, rfl⟩

/-- The last alias of the last working byte, and the last byte of the two other stores. -/
theorem witness_AliasesOfAByte :
    (region 0xFFFF = (.WRAM, 0x3FF) ∧ (0xFFFF : Addr).toNat = 0x4000 + 0x3FF + 0x400 * 47) ∧
      region 0x1FFF = (.PROG, 0x1FFF) ∧ region 0x3FFF = (.VRAM, 0x1BFF) := by decide

theorem witness_AccessPolicyByView :
    (0x1FFF : Addr).toNat ≤ 0x1FFF ∧
    (0x2000 ≤ (0x2000 : Addr).toNat ∧ (0x2000 : Addr).toNat ≤ 0x23FF) ∧
    (0x2000 ≤ (0x23FF : Addr).toNat ∧ (0x23FF : Addr).toNat ≤ 0x23FF) ∧
    (0x2400 ≤ (0x2400 : Addr).toNat ∧ (0x2400 : Addr).toNat ≤ 0x3FFF) ∧
    (0x2400 ≤ (0x3FFF : Addr).toNat ∧ (0x3FFF : Addr).toNat ≤ 0x3FFF) ∧
    0x4000 ≤ (0x4000 : Addr).toNat ∧ 0x4000 ≤ (0xFFFF : Addr).toNat := by decide

/-- An alias of a working byte, another byte, and an address of the program view. -/
theorem witness_WriteThenRead : StoresOk s0 ∧ (region 0xFD23 = region 0x2123 ∧ 0x2000 ≤ (0x2123 : Addr).toNat) ∧
    region 0x2122 ≠ region 0x2123 ∧ (0x1FFF : Addr).toNat ≤ 0x1FFF := ⟨reset_storesOk, by decide⟩

theorem witness_WordAndByteViewsAgree : StoresOk s0 ∧
    (0x2000 ≤ (0x2000 : Addr).toNat ∧ 0x2000 ≤ ((0x2000 : Addr) + 1).toNat) ∧
    0x2000 ≤ (0xFFFE : Addr).toNat ∧ 0x2000 ≤ ((0xFFFE : Addr) + 1).toNat := ⟨reset_storesOk, by decide⟩

theorem witness_PseudoTransactionIsItsExpansion : let i : Instr := .loadImage 0xFFFF [1, 2]
    (∃ base bytes, i = .loadImage base bytes) ∨ (∃ b0 b1 b2 b3, i = .loadRom b0 b1 b2 b3) ∨ i = .frameScan ∨
      (∃ n, i = .press n) ∨ (∃ n, i = .release n) := .inl ⟨_, _, rfl⟩

theorem witness_LoadRomPlacesTheBlocks : StoresOk s0 ∧ ∃ b : Fin 4 → List Byte, ∀ j, (b j).length = 2048 :=
  ⟨reset_storesOk, fun _ => List.replicate 2048 1, fun _ => List.length_replicate⟩

theorem witness_ShiftReadFormsAgree : params.shiftAnchor = 8 := rfl

theorem witness_UnrecognisedPortsAndWatchdogWrite :
    (255 : Port).toNat < 2 ^ params.portWidth ∧ 255 ∉ [params.portInA, params.portInB, params.portShiftRead, params.portWdgR] ∧
      3 ∉ [params.portShiftOffset, params.portShiftData, params.portWdgW] := by decide

/-- Two offset writes, three loads and another transaction between them. -/
theorem witness_TwoLoadsThenRead :
    let is : List Instr := [.outOffset 7, .outData 0x99, .outData 0x12, .inA, .outOffset 3, .outData 0x34]
    (∃ t, execAll is s0 = .next t) ∧ offsetWrites is = [7] ++ [3] ∧ dataWrites is = [0x99] ++ [0x12, 0x34] :=
  ⟨⟨_, rfl⟩, rfl, rfl⟩

theorem witness_PopReturnsTheOldest : (queued [0xCF, 0xD7] 0).iq = 0xCF :: [0xD7] := rfl

theorem witness_PopOfEmptyFaults : s0.iq = [] := rfl

theorem witness_FiniteQueueRefusesWhenFull : params.queueDepth = none ∧
    ({ params with queueDepth := some 2 } : Params).queueDepth = some 2 ∧
      2 ≤ (queued [0xCF, 0xD7] 0).iq.length ∧ (queued [0xCF] 0).iq.length < 2 := by decide

theorem witness_QueueIsFirstInFirstOut :
    (∃ r, execTrace [.push 0xCF, .tick 16666, .pop] s0 = some r ∧ r.popped = [0xCF] ∧ r.pushed = [0xCF, 0xCF]) ∧ s0.iq = [] :=
  ⟨⟨_, rfl, rfl, rfl⟩, rfl⟩

theorem witness_TickPushesOneVectorPerBoundary :
    (queued [] 16665).cycPrev.toNat ≤ (16665 : Count).toNat ∧ (16664 : Count).toNat < (queued [] 16665).cycPrev.toNat := by
  decide

theorem witness_CadenceLaw : ((s0.cycPrev :: [(7 : Count), 50000, 50001, 100000]).map BitVec.toNat).Pairwise (· ≤ ·) ∧
    (s0.cycPrev :: [(7 : Count), 50000, 50001, 100000]).getLast? = some 100000 ∧ s0.cycPrev = 0 := by decide

theorem witness_StepKeepsTheStoresCanonical : StoresOk s0 ∧ ∃ t, step (s0.withFetchWord 40 0x01_FFFF_00FF) = .next t :=
  ⟨reset_storesOk, _, rfl⟩

theorem witness_StepKeepsTheQueueOfTicks : QueueOfTicks params (queued [0xD7] 40000) ∧
    (∀ x, nextRequest (given (queued [0xD7] 40000) none [.named .pop]).holds = some x → ∀ v, instrOf x.request ≠ .ok (.push v)) ∧
      ∃ t, step (given (queued [0xD7] 40000) none [.named .pop]) = .next t := by
  refine ⟨by unfold QueueOfTicks; decide, fun x hx v h => ?_, _, rfl⟩
  cases hx
  exact absurd h (by simp [instrOf, wellFormed])

theorem witness_QueueOfTicksAlternates : params.Valid ∧ QueueOfTicks params (queued [0xCF, 0xD7] 40000) :=
  ⟨by decide, by unfold QueueOfTicks; decide⟩

theorem witness_StartedBlockKeepsItsProgram : ({ s0 with started := true } : State).started = true ∧
    ∃ t, step ({ s0 with started := true }.withFetchWord 40 0x01_0000_00FF) = .next t := ⟨rfl, _, rfl⟩

/-- A run of conforming agents: a load, two engine steps each with its `tick`, the first of one fetch and the second with a poll at
its end, and a press between the second step and its `tick`. -/
abbrev run : State := { s0 with holds := [⟨some .loader, [.named (.loadByte 0 0xC3)], .fresh⟩,
  ⟨some .engine, [.word (.t40 0)], .fresh⟩, ⟨some .source, [.word (.k64 16666)], .fresh⟩,
  ⟨some .engine, [.word (.t40 0), .poll true [.writeWord 0x23FE 0x100]], .fresh⟩,
  ⟨some .presentation, [.named (.press .coin)], .fresh⟩, ⟨some .source, [.named (.tick 16670)], .fresh⟩] }

theorem run_conforming : Conforming run := by
  show orderOk _ _ _ _ = true
  decide

/-- An engine step whose poll has led to a `pop`. -/
abbrev popping : State := { queued [0xCF] 16666 with started := true, tickDue := true, holds :=
  [⟨some .engine, [.named .pop, .named .inA], .popDue⟩, ⟨some .source, [.named (.tick 16670)], .fresh⟩] }

theorem popping_conforming : Conforming popping := by
  show _ ∧ _ ∧ _ ∧ _
  decide

theorem witness_ConformingAgentsNeverStopTheBlock : Conforming run ∧ Conforming popping :=
  ⟨run_conforming, popping_conforming⟩

/-- What breaks the contract: a step with no `tick` before the next one, a `tick` with no step, two `tick`s for one step, a poll in
the middle of a step, a load after a press or a `tick`. -/
theorem test_not_conforming :
    orderOk false false 0 [⟨some .engine, [.named .inA], .fresh⟩, ⟨some .engine, [.named .inA], .fresh⟩] = false ∧
    orderOk false false 0 [⟨some .source, [.named (.tick 4)], .fresh⟩] = false ∧
    orderOk false false 0 [⟨some .engine, [.named .inA], .fresh⟩,
      ⟨some .source, [.named (.tick 4), .named (.tick 5)], .fresh⟩] = false ∧
    orderOk false false 0 [⟨some .engine, [.named .inA, .poll true [], .named .inB], .fresh⟩] = false ∧
    orderOk false false 0 [⟨some .presentation, [.named (.press .coin)], .fresh⟩,
      ⟨some .loader, [.named (.loadByte 0 0xC3)], .fresh⟩] = false ∧
    orderOk true false 0 [⟨some .source, [.named (.tick 4)], .fresh⟩,
      ⟨some .loader, [.named (.loadByte 0 0xC3)], .fresh⟩] = false := by decide

/-- An engine step that ends with a poll, from a state that keeps the contract. -/
theorem witness_EngineStepRunsWholeAndPopsAtMostOnce :
    let h : Hold := ⟨some .engine, [.named .inA, .poll true []], .fresh⟩
    let s : State := { queued [0xCF] 16666 with holds := [h, ⟨some .source, [.named (.tick 16670)], .fresh⟩] }
    s.holds = h :: [⟨some .source, [.named (.tick 16670)], .fresh⟩] ∧ h.agent = some .engine ∧ h.requests ≠ [] ∧
      h.stage = .fresh ∧ Conforming s := by
  refine ⟨rfl, rfl, by decide, rfl, ?_⟩
  show orderOk _ _ _ _ = true
  decide

/-- Steps and `tick`s, and a poll that is the last request of its step. -/
theorem witness_StepsAndTicksAlternate : Conforming run ∧ run.tickDue = false ∧
    unitTurns run.holds = [.engine, .source, .engine, .source] ∧
    run.holds[0]? = some ⟨some .loader, [.named (.loadByte 0 0xC3)], .fresh⟩ ∧
    run.holds[3]? = some ⟨some .engine, [.word (.t40 0), .poll true [.writeWord 0x23FE 0x100]], .fresh⟩ :=
  ⟨run_conforming, rfl, by decide, rfl, rfl⟩

theorem witness_OnlyPopAndTickCanStop : exec .pop s0 = .fault .popEmpty ∧
    exec (.tick 39999) (queued [] 40000) = .refused .countDecreased := ⟨rfl, rfl⟩

theorem witness_WritesStayInTheAccessMatrix : ∃ t, exec (.writeWord 0x23FF 0x1234) s0 = .next t := ⟨_, rfl⟩

/-- Two states that agree on the shift register and differ elsewhere. -/
theorem witness_ReadsStayInTheAccessMatrix :
    (∀ it, it ∈ mayRead params (.outData 0x56) → agreeOn (shifted 0x3412 3) (shifted 0x3412 4) it) ∧
      (shifted 0x3412 3).draws = (shifted 0x3412 4).draws ∧ ∃ t, exec (.outData 0x56) (shifted 0x3412 3) = .next t := by
  refine ⟨fun it h => ?_, rfl, _, rfl⟩
  simp only [mayRead, List.mem_singleton] at h
  subst h; rfl

/-- A stored byte and another address; a dropped byte, for which no address is excluded. -/
theorem witness_EveryOtherByteIsUnchanged : StoresOk s0 ∧ (∃ t, exec (.writeByte 0x4000 0x5A) s0 = .next t) ∧
    (∀ a ∈ storedAddrs (.writeByte 0x4000 0x5A), region a ≠ region 0x2001) ∧
      storedAddrs (.writeByte 0x0000 0x5A) = [] := by
  have h : storedAddrs (.writeByte 0x4000 0x5A) = [0x4000] := by decide
  refine ⟨reset_storesOk, ⟨_, rfl⟩, fun a ha => ?_, by decide⟩
  rw [h, List.mem_singleton] at ha
  subst ha
  decide

end Sys2Proof.Tests
end

section
/-! PROOFS. The state (spec/10_state.md): what a transaction leaves unchanged and what its answer depends on, both by the access
matrix of R26, and the invariants of the stores, the program and the queue over every step. -/

namespace Sys2Proof.Machine

/-! ## The items of the access matrix -/

/-- An item that is no latch field is not the item of one. -/
@[simp] theorem eq_latchItem_iff_false {it : Item} (hA : it ≠ .LA) (hB : it ≠ .LB) (f : LatchField) :
    it = latchItem f ↔ False := by
  cases f <;> simpa [latchItem]

theorem agreeOn_storeItem {s t : State} (st : Store) : agreeOn s t (storeItem st) ↔ s.store st = t.store st := by
  cases st <;> rfl

theorem agreeOn_latchItem {s t : State} (f : LatchField) : agreeOn s t (latchItem f) ↔ s.latch f = t.latch f := by
  cases f <;> rfl

/-- The outputs are no item of the block. -/
@[simp] theorem agreeOn_answer {s t : State} (r : Response) (it : Item) : agreeOn s (t.answer r) it ↔ agreeOn s t it := by
  cases it <;> rfl

@[simp] theorem agreeOn_answer_left {s t : State} (r : Response) (it : Item) : agreeOn (s.answer r) t it ↔ agreeOn s t it := by
  cases it <;> rfl

@[simp] theorem agreeOn_report {s t : State} (r : Response) (d : Diag) (it : Item) :
    agreeOn s (t.report r d) it ↔ agreeOn s t it := by
  cases it <;> rfl

/-- The program store is written by the load path alone (R11). -/
theorem prog_mem_mayWrite {c : Params} {i : Instr} : .PROG ∈ mayWrite c i ↔ isLoad i = true := by
  cases i <;> simp [mayWrite, isLoad]

/-- The queue and the count of the last observation are written by `push`, `pop` and `tick` alone (R19, R20). -/
theorem queue_not_mem_mayWrite {c : Params} {i : Instr} (hpush : ∀ v, i ≠ .push v) (hpop : i ≠ .pop) (htick : ∀ n, i ≠ .tick n) :
    .IQ ∉ mayWrite c i ∧ .CYC_PREV ∉ mayWrite c i := by
  cases i with
  | push v => exact absurd rfl (hpush v)
  | pop => exact absurd rfl hpop
  | tick n => exact absurd rfl (htick n)
  | _ => simp [mayWrite]

/-! ## The transactions of the queue -/

theorem exec_push (s : State) (v : Byte) : exec (.push v) s = .next ((s.setIq (s.iq ++ [v])).answer .silent) := rfl

theorem popVector_next_cases {s t : State} (h : popVector s = .next t) :
    ∃ v vs, s.iq = v :: vs ∧ t = (s.setIq vs).answer (.byte v) := by
  cases hq : s.iq with
  | nil => rw [popVector_nil hq] at h; cases h
  | cons v vs =>
    rw [popVector_cons hq] at h
    cases h
    exact ⟨v, vs, rfl, rfl⟩

theorem observe_next_cases {s t : State} {n : Count} (h : observe params s n = .next t) :
    s.cycPrev.toNat ≤ n.toNat ∧ t = ((s.setCycPrev n).setIq
      (s.iq ++ vectorsBetween params (halfFrame params s.cycPrev) (halfFrame params n))).answer .silent := by
  rcases Nat.lt_or_ge n.toNat s.cycPrev.toNat with hlt | hle
  · rw [observe_decreased params hlt] at h; cases h
  · rw [observe_params hle] at h
    cases h
    exact ⟨hle, rfl⟩

/-! ## What an instruction leaves unchanged -/

/-- From `s` to `t` nothing has changed but the outputs, the items listed and, where `mayDraw` says so, the count of draws. -/
structure ChangesOnly (its : List Item) (mayDraw : Prop) (s t : State) : Prop where
  items   : ∀ it, it ∉ its → agreeOn s t it
  holds   : t.holds = s.holds
  started : t.started = s.started
  booted  : t.booted = s.booted
  tickDue : t.tickDue = s.tickDue
  draws   : ¬ mayDraw → t.draws = s.draws

namespace ChangesOnly

variable {its : List Item} {mayDraw : Prop} {s t : State}

theorem refl (its : List Item) (mayDraw : Prop) (s : State) : ChangesOnly its mayDraw s s :=
  ⟨fun it _ => by cases it <;> rfl, rfl, rfl, rfl, rfl, fun _ => rfl⟩

theorem answer (h : ChangesOnly its mayDraw s t) (r : Response) : ChangesOnly its mayDraw s (t.answer r) :=
  ⟨fun it hit => (agreeOn_answer r it).mpr (h.items it hit), h.holds, h.started, h.booted, h.tickDue, h.draws⟩

theorem report (h : ChangesOnly its mayDraw s t) (r : Response) (d : Diag) : ChangesOnly its mayDraw s (t.report r d) :=
  ⟨fun it hit => (agreeOn_report r d it).mpr (h.items it hit), h.holds, h.started, h.booted, h.tickDue, h.draws⟩

theorem countDraw (h : mayDraw) (s : State) : ChangesOnly its mayDraw s s.countDraw :=
  ⟨fun it _ => by cases it <;> rfl, rfl, rfl, rfl, rfl, fun hn => absurd h hn⟩

theorem setSr (s : State) (v : BitVec 16) : ChangesOnly [.SR] mayDraw s (s.setSr v) :=
  ⟨fun it _ => by cases it <;> simp_all [agreeOn], rfl, rfl, rfl, rfl, fun _ => rfl⟩

theorem setSo (s : State) (v : BitVec 3) : ChangesOnly [.SO] mayDraw s (s.setSo v) :=
  ⟨fun it _ => by cases it <;> simp_all [agreeOn], rfl, rfl, rfl, rfl, fun _ => rfl⟩

theorem setLatch (s : State) (f : LatchField) (v : Byte) : ChangesOnly [latchItem f] mayDraw s (s.setLatch f v) := by
  refine ⟨fun it _ => ?_, ?_, ?_, ?_, ?_, fun _ => ?_⟩
  · cases f <;> cases it <;> simp_all [agreeOn, latchItem]
  all_goals simp

theorem setIq (s : State) (vs : List Byte) : ChangesOnly [.IQ] mayDraw s (s.setIq vs) :=
  ⟨fun it _ => by cases it <;> simp_all [agreeOn], rfl, rfl, rfl, rfl, fun _ => rfl⟩

theorem setCycPrev_setIq (s : State) (n : Count) (vs : List Byte) :
    ChangesOnly [.IQ, .CYC_PREV] mayDraw s ((s.setCycPrev n).setIq vs) :=
  ⟨fun it _ => by cases it <;> simp_all [agreeOn], rfl, rfl, rfl, rfl, fun _ => rfl⟩

/-- An unrestricted write changes the stores alone. -/
theorem stores (h : SameButStores s t) : ChangesOnly [.PROG, .WRAM, .VRAM] mayDraw s t := by
  obtain ⟨hsr, hso, hla, hlb, hiq, hcyc, hdraws, hstarted, hbooted, htick, hholds⟩ := h
  exact ⟨fun it _ => by cases it <;> simp_all [agreeOn], hholds, hstarted, hbooted, htick, fun _ => hdraws⟩

/-- A run-time write changes working and video memory alone. -/
theorem runtimeStores (h : SameButStores s t) (hprog : t.prog = s.prog) : ChangesOnly [.WRAM, .VRAM] mayDraw s t :=
  { stores h with
    items := fun it hit => by
      by_cases hp : it = .PROG
      · rw [hp]; exact hprog.symm
      · exact (stores (mayDraw := mayDraw) h).items it (by simp_all) }

theorem store_eq (h : ChangesOnly its mayDraw s t) {st : Store} (hst : storeItem st ∉ its) : t.store st = s.store st :=
  ((agreeOn_storeItem st).mp (h.items _ hst)).symm

end ChangesOnly

/-- The w marks of the access matrix (R26) bound what every instruction changes, and only a watchdog read draws. -/
theorem exec_changesOnly {i : Instr} {s t : State} (h : exec i s = .next t) :
    ChangesOnly (mayWrite params i) (i = .inWdg) s t := by
  cases i with
  | readByte _ | readWord _ | inB | inShift | outWdg _ | hasPending | frameScan | viewProg _ | viewWram _ | viewVram0 _
  | viewVram1 _ | viewVram2 _ | viewMirror0 _ | viewMirror1 _ =>
    cases h
    exact (ChangesOnly.refl _ _ s).answer _
  | inUnk _ | outUnk _ _ =>
    cases h
    exact (ChangesOnly.refl _ _ s).report _ _
  | writeByte a v =>
    cases h
    exact (ChangesOnly.runtimeStores (sameButStores_memWrite s a v) (memWrite_prog s a v)).answer _
  | writeWord a w =>
    cases h
    exact (ChangesOnly.runtimeStores (sameButStores_memWriteWord s a w) (memWriteWord_prog s a w)).answer _
  | loadByte a v =>
    cases h
    exact (ChangesOnly.stores (sameButStores_memLoad s a v)).answer _
  | loadImage base vs =>
    cases h
    exact (ChangesOnly.stores (sameButStores_loadBytes s base vs)).answer _
  | loadRom b0 b1 b2 b3 =>
    cases h
    exact (ChangesOnly.stores (sameButStores_loadBlocks s b0 b1 b2 b3)).answer _
  | inA =>
    cases h
    exact (ChangesOnly.setLatch s .A _).answer _
  | latchSet _ _ | latchClear _ _ | press _ | release _ =>
    cases h
    exact (ChangesOnly.setLatch s _ _).answer _
  | inWdg =>
    cases h
    exact (ChangesOnly.countDraw rfl s).answer _
  | outOffset d =>
    cases h
    exact (ChangesOnly.setSo s _).answer _
  | outData d =>
    cases h
    exact (ChangesOnly.setSr s _).answer _
  | push v =>
    rw [exec_push] at h
    cases h
    exact (ChangesOnly.setIq s _).answer _
  | pop =>
    obtain ⟨v, vs, -, rfl⟩ := popVector_next_cases h
    exact (ChangesOnly.setIq s vs).answer _
  | tick n =>
    obtain ⟨-, rfl⟩ := observe_next_cases h
    exact (ChangesOnly.setCycPrev_setIq s n _).answer _

/-- Settles O56, by the frame of `exec`. -/
theorem writesStayInTheAccessMatrix : Obligations.WritesStayInTheAccessMatrix := by
  intro i s t h
  have hc := exec_changesOnly h
  exact ⟨hc.items, hc.holds, hc.started, hc.booted, hc.tickDue, hc.draws⟩

/-! ## What an answer depends on -/

/-- Two next states give the same answer and agree on the registers among the items listed. -/
structure SameAnswer (its : List Item) (t t' : State) : Prop where
  response  : t'.response = t.response
  diag      : t'.diag = t.diag
  registers : ∀ it ∈ its, it ∈ Machine.registers → agreeOn t t' it

namespace SameAnswer

variable {its : List Item} {s s' : State} {r r' : Response}

theorem answer (hr : r' = r) (h : ∀ it ∈ its, it ∈ Machine.registers → agreeOn s s' it) :
    SameAnswer its (s.answer r) (s'.answer r') :=
  ⟨hr, rfl, fun it hit hreg => (agreeOn_answer_left r it).mpr ((agreeOn_answer r' it).mpr (h it hit hreg))⟩

theorem answer_nil (hr : r' = r) : SameAnswer [] (s.answer r) (s'.answer r') :=
  answer hr fun _ hit => nomatch hit

/-- Where no register is written, only the response counts. -/
theorem answer_only (hits : ∀ it ∈ its, it ∉ Machine.registers) (hr : r' = r) : SameAnswer its (s.answer r) (s'.answer r') :=
  answer hr fun it hit hreg => absurd hreg (hits it hit)

/-- Where one register is written, it is the one to agree on. -/
theorem answer_one {it : Item} (hr : r' = r) (h : agreeOn s s' it) : SameAnswer [it] (s.answer r) (s'.answer r') :=
  answer hr fun it' hit _ => by rw [List.mem_singleton.mp hit]; exact h

end SameAnswer

theorem stores_not_registers : ∀ it ∈ [Item.PROG, .WRAM, .VRAM], it ∉ registers := by decide

theorem runtimeStores_not_registers : ∀ it ∈ [Item.WRAM, .VRAM], it ∉ registers := by decide

/-- A memory read touches one store only, the one `region` selects (R26). -/
theorem memRead_of_agreeOn {s s' : State} {a : Addr} (h : agreeOn s s' (storeItem (region a).1)) : memRead s' a = memRead s a := by
  rw [memRead, memRead, (agreeOn_storeItem _).mp h]

theorem region_of_mem_videoAddrs {a : Addr} (h : a ∈ videoAddrs) : (region a).1 = .VRAM := by
  obtain ⟨n, hn, rfl⟩ := List.mem_map.mp h
  rw [List.mem_range'_1] at hn
  have hval : (BitVec.ofNat 16 n).toNat = n := by rw [BitVec.toNat_ofNat]; omega
  rw [region_video (by omega) (by omega)]

theorem frameBytes_of_agreeOn {s s' : State} (h : agreeOn s s' .VRAM) : frameBytes s' = frameBytes s :=
  List.map_congr_left fun a ha => memRead_of_agreeOn (by rw [region_of_mem_videoAddrs ha]; exact h)

theorem agreeOn_setLatch {s s' : State} (f : LatchField) {v v' : Byte} (h : v = v') :
    agreeOn (s.setLatch f v) (s'.setLatch f v') (latchItem f) := by
  rw [agreeOn_latchItem, State.setLatch_latch_same, State.setLatch_latch_same, h]

theorem agreeOn_setBit {s s' : State} {f : LatchField} (h : agreeOn s s' (latchItem f)) (i : BitVec 3) :
    agreeOn (setBit s f i) (setBit s' f i) (latchItem f) :=
  agreeOn_setLatch f (by rw [(agreeOn_latchItem f).mp h])

theorem agreeOn_clearBit {s s' : State} {f : LatchField} (h : agreeOn s s' (latchItem f)) (i : BitVec 3) :
    agreeOn (clearBit s f i) (clearBit s' f i) (latchItem f) :=
  agreeOn_setLatch f (by rw [(agreeOn_latchItem f).mp h])

/-- The r marks of the access matrix (R26) bound what every instruction's answer and register writes depend on. -/
theorem exec_sameAnswer {i : Instr} {s s' t : State} (hag : ∀ it, it ∈ mayRead params i → agreeOn s s' it)
    (hdraws : s.draws = s'.draws) (h : exec i s = .next t) :
    ∃ t', exec i s' = .next t' ∧ SameAnswer (mayWrite params i) t t' := by
  cases i with
  | outWdg _ | viewProg _ | viewWram _ | viewVram0 _ | viewVram1 _ | viewVram2 _ | viewMirror0 _ | viewMirror1 _ =>
    cases h
    exact ⟨_, rfl, .answer_nil rfl⟩
  | inUnk _ | outUnk _ _ =>
    cases h
    exact ⟨_, rfl, rfl, rfl, fun _ hit => nomatch hit⟩
  | writeByte _ _ | writeWord _ _ =>
    cases h
    exact ⟨_, rfl, .answer_only runtimeStores_not_registers rfl⟩
  | loadByte _ _ | loadImage _ _ | loadRom _ _ _ _ =>
    cases h
    exact ⟨_, rfl, .answer_only stores_not_registers rfl⟩
  | readByte a =>
    cases h
    have hread := memRead_of_agreeOn (hag _ (List.mem_singleton_self _))
    exact ⟨_, rfl, .answer_nil (by rw [hread])⟩
  | readWord a =>
    cases h
    have hlow := memRead_of_agreeOn (hag (storeItem (region a).1) (by simp [mayRead]))
    have hhigh := memRead_of_agreeOn (hag (storeItem (region (inc16 a)).1) (by simp [mayRead]))
    exact ⟨_, rfl, .answer_nil (by rw [memReadWord, memReadWord, hlow, hhigh])⟩
  | frameScan =>
    cases h
    have hbytes := frameBytes_of_agreeOn (hag .VRAM (List.mem_singleton_self _))
    exact ⟨_, rfl, .answer_nil (by rw [hbytes])⟩
  | inA =>
    cases h
    have hla : s.la = s'.la := hag .LA (List.mem_singleton_self _)
    exact ⟨_, rfl, .answer_one (by rw [hla]) (agreeOn_setLatch .A (by rw [hla]))⟩
  | inB =>
    cases h
    have hlb : s.lb = s'.lb := hag .LB (List.mem_singleton_self _)
    exact ⟨_, rfl, .answer_nil (by rw [hlb])⟩
  | inShift =>
    cases h
    have hsr : s.sr = s'.sr := hag .SR (by simp [mayRead])
    have hso : s.so = s'.so := hag .SO (by simp [mayRead])
    exact ⟨_, rfl, .answer_nil (by rw [hsr, hso])⟩
  | inWdg =>
    cases h
    exact ⟨_, rfl, .answer_nil (by rw [hdraws])⟩
  | outOffset d =>
    cases h
    exact ⟨_, rfl, .answer_one rfl rfl⟩
  | outData d =>
    cases h
    have hsr : s.sr = s'.sr := hag .SR (List.mem_singleton_self _)
    exact ⟨_, rfl, .answer_one rfl (congrArg (shiftLoad · d) hsr)⟩
  | latchSet f b =>
    cases h
    exact ⟨_, rfl, .answer_one rfl (agreeOn_setBit (hag _ (List.mem_singleton_self _)) b)⟩
  | latchClear f b =>
    cases h
    exact ⟨_, rfl, .answer_one rfl (agreeOn_clearBit (hag _ (List.mem_singleton_self _)) b)⟩
  | press n =>
    cases h
    exact ⟨_, rfl, .answer_one rfl (agreeOn_setBit (hag _ (List.mem_singleton_self _)) _)⟩
  | release n =>
    cases h
    exact ⟨_, rfl, .answer_one rfl (agreeOn_clearBit (hag _ (List.mem_singleton_self _)) _)⟩
  | hasPending =>
    cases h
    have hiq : s.iq = s'.iq := hag .IQ (List.mem_singleton_self _)
    exact ⟨_, rfl, .answer_nil (by rw [pending, pending, hiq])⟩
  | push v =>
    rw [exec_push] at h
    cases h
    have hiq : s.iq = s'.iq := hag .IQ (List.mem_singleton_self _)
    exact ⟨_, exec_push s' v, .answer_one rfl (congrArg (· ++ [v]) hiq)⟩
  | pop =>
    obtain ⟨v, vs, hq, rfl⟩ := popVector_next_cases h
    have hiq : s.iq = s'.iq := hag .IQ (List.mem_singleton_self _)
    exact ⟨_, popVector_cons (hiq ▸ hq), .answer_one rfl rfl⟩
  | tick n =>
    obtain ⟨hle, rfl⟩ := observe_next_cases h
    have hiq : s.iq = s'.iq := hag .IQ (by simp [mayRead])
    have hcyc : s.cycPrev = s'.cycPrev := hag .CYC_PREV (by simp [mayRead])
    refine ⟨_, observe_params (hcyc ▸ hle), rfl, rfl, fun it hit _ => ?_⟩
    simp only [mayWrite, List.mem_cons, List.not_mem_nil, or_false] at hit
    rcases hit with rfl | rfl
    · simp [agreeOn, hiq, hcyc]
    · rfl

/-- Settles O57, by the frame of what `exec` reads. -/
theorem readsStayInTheAccessMatrix : Obligations.ReadsStayInTheAccessMatrix := by
  intro i s s' t hag hdraws h
  obtain ⟨t', h', hsame⟩ := exec_sameAnswer hag hdraws h
  exact ⟨t', h', hsame.response, hsame.diag, hsame.registers⟩

/-! ## Invariants of every step -/

/-- What a step leaves of the block and the record of the start: it changes nothing, or it leaves what the transaction it ran
left, since the engine's decision after a poll changes the holds alone. -/
theorem step_toBlock_cases {s t : State} (h : step s = .next t) :
    t = s ∨ ∃ x i u, nextRequest s.holds = some x ∧ instrOf x.request = .ok i ∧ loadGate s i = none ∧
      exec i (s.take x) = .next u ∧ t.toBlock = u.toBlock ∧ t.started = u.started := by
  obtain ⟨-, rfl⟩ | ⟨x, i, u, hx, hi, hgate, hu, hafter⟩ := step_next_cases h
  · exact .inl rfl
  · refine .inr ⟨x, i, u, hx, hi, hgate, hu, ?_⟩
    obtain ⟨-, rfl⟩ | ⟨e, service, -, -, rfl⟩ := hafter
    · exact ⟨rfl, rfl⟩
    · exact ⟨followPoll_toBlock x e service u, followPoll_started x e service u⟩

/-! ### The stores -/

theorem StoresOk.of_toBlock {s t : State} (hs : StoresOk s) (h : t.toBlock = s.toBlock) : StoresOk t :=
  hs.congr fun st => by
    cases st
    · exact congrArg Block.prog h
    · exact congrArg Block.wram h
    · exact congrArg Block.vram h

theorem StoresOk.answer {s : State} (hs : StoresOk s) (r : Response) : StoresOk (s.answer r) :=
  hs.of_toBlock rfl

/-- Every instruction keeps the stores canonical: the five that write memory by the laws of their operations, every other one
because no store is in its row of the access matrix. -/
theorem StoresOk.exec {i : Instr} {s t : State} (hs : StoresOk s) (h : exec i s = .next t) : StoresOk t := by
  cases i with
  | writeByte a v =>
    cases h
    exact (hs.memWrite a v).answer _
  | writeWord a w =>
    cases h
    exact (hs.memWriteWord a w).answer _
  | loadByte a v =>
    cases h
    exact (hs.memLoad a v).answer _
  | loadImage base vs =>
    cases h
    exact (StoresOk.loadBytes base vs hs).answer _
  | loadRom b0 b1 b2 b3 =>
    cases h
    exact (hs.loadBlocks b0 b1 b2 b3).answer _
  | _ => exact hs.congr fun st => (exec_changesOnly h).store_eq (by cases st <;> simp [mayWrite, storeItem])

/-- Settles O48. -/
theorem resetStoresAreCanonical : Obligations.ResetStoresAreCanonical := fun st => by
  cases st <;> exact ⟨rfl, rfl⟩

/-- Settles O49, by the invariant over `exec`. -/
theorem stepKeepsTheStoresCanonical : Obligations.StepKeepsTheStoresCanonical := by
  intro s t hs h
  obtain rfl | ⟨x, i, u, -, -, -, hu, hblock, -⟩ := step_toBlock_cases h
  · exact hs
  · exact (StoresOk.exec (hs.of_toBlock (s.take_toBlock x)) hu).of_toBlock hblock

/-- Settles O47. -/
theorem resetIsAllZero : Obligations.ResetIsAllZero := by
  have hread (a : Addr) : memRead State.reset a = 0 := by
    rw [memRead]
    cases (region a).1 <;> rfl
  exact ⟨fun a => by rw [← hread a]; rfl, rfl, rfl, rfl, rfl, rfl⟩

/-! ### The program store -/

/-- Settles O53: the load gate admits no load once the engine has started, and nothing else writes the program store. -/
theorem startedBlockKeepsItsProgram : Obligations.StartedBlockKeepsItsProgram := by
  intro s t hstarted h
  obtain rfl | ⟨x, i, u, -, -, hgate, hu, hblock, hstart⟩ := step_toBlock_cases h
  · exact ⟨hstarted, rfl⟩
  · have hframe := exec_changesOnly hu
    have hload : ¬ isLoad i = true := fun hl => by
      rw [loadGate_eq_none.mp hgate hl] at hstarted
      cases hstarted
    have hprog : s.prog = u.prog := hframe.items .PROG (fun hm => hload (prog_mem_mayWrite.mp hm))
    refine ⟨?_, (congrArg Block.prog hblock).trans hprog.symm⟩
    rw [hstart, hframe.started, State.take_started, hstarted, Bool.true_or]

/-! ### The queue -/

theorem QueueOfTicks.congr {c : Params} {s t : State} (hs : QueueOfTicks c s) (hiq : t.iq = s.iq) (hcyc : t.cycPrev = s.cycPrev) :
    QueueOfTicks c t := by
  unfold QueueOfTicks
  rw [hiq, hcyc]
  exact hs

/-- A `pop` takes the oldest of the last half-frames entered. -/
theorem QueueOfTicks.pop {c : Params} {s t : State} {v : Byte} (hs : QueueOfTicks c s) (hiq : s.iq = v :: t.iq)
    (hcyc : t.cycPrev = s.cycPrev) : QueueOfTicks c t := by
  obtain ⟨hlen, hvs⟩ := hs
  have hcons : s.iq.length = t.iq.length + 1 := by rw [hiq, List.length_cons]
  rw [hcons] at hlen hvs
  rw [hiq, vectorsBetween_succ c (by omega)] at hvs
  refine ⟨by rw [hcyc]; omega, ?_⟩
  have htail := (List.cons.inj hvs).2
  rwa [show halfFrame c s.cycPrev - (t.iq.length + 1) + 1 = halfFrame c s.cycPrev - t.iq.length by omega, ← hcyc] at htail

/-- A `tick` appends the half-frames entered since the last observation. -/
theorem QueueOfTicks.tick {c : Params} {s t : State} (hs : QueueOfTicks c s) (hle : s.cycPrev.toNat ≤ t.cycPrev.toNat)
    (hiq : t.iq = s.iq ++ vectorsBetween c (halfFrame c s.cycPrev) (halfFrame c t.cycPrev)) : QueueOfTicks c t := by
  obtain ⟨hlen, hvs⟩ := hs
  have hmono := halfFrame_mono c hle
  have hlen' : t.iq.length = s.iq.length + (halfFrame c t.cycPrev - halfFrame c s.cycPrev) := by
    rw [hiq, List.length_append, length_vectorsBetween]
  refine ⟨by omega, ?_⟩
  calc t.iq = vectorsBetween c (halfFrame c s.cycPrev - s.iq.length) (halfFrame c s.cycPrev) ++
        vectorsBetween c (halfFrame c s.cycPrev) (halfFrame c t.cycPrev) := by rw [← hvs]; exact hiq
    _ = vectorsBetween c (halfFrame c s.cycPrev - s.iq.length) (halfFrame c t.cycPrev) :=
        vectorsBetween_append c (Nat.sub_le _ _) hmono
    _ = vectorsBetween c (halfFrame c t.cycPrev - t.iq.length) (halfFrame c t.cycPrev) := by
        congr 1
        omega

/-- Every instruction but a `push` keeps the queue what `tick` makes it. -/
theorem QueueOfTicks.exec {i : Instr} {s t : State} (hs : QueueOfTicks params s) (hpush : ∀ v, i ≠ .push v)
    (h : exec i s = .next t) : QueueOfTicks params t := by
  by_cases hpop : i = .pop
  · subst hpop
    obtain ⟨v, vs, hiq, rfl⟩ := popVector_next_cases h
    exact hs.pop hiq rfl
  by_cases htick : ∃ n, i = .tick n
  · obtain ⟨n, rfl⟩ := htick
    obtain ⟨hle, rfl⟩ := observe_next_cases h
    exact hs.tick hle rfl
  have hframe := exec_changesOnly h
  obtain ⟨hiq, hcyc⟩ := queue_not_mem_mayWrite (c := params) hpush hpop fun n e => htick ⟨n, e⟩
  exact hs.congr (hframe.items .IQ hiq).symm (hframe.items .CYC_PREV hcyc).symm

/-- Settles O50. -/
theorem resetQueueIsOfTicks : Obligations.ResetQueueIsOfTicks :=
  ⟨rfl, Nat.zero_le _, (vectorsBetween_self params _).symm⟩

/-- Settles O51, by the invariant over `exec`. -/
theorem stepKeepsTheQueueOfTicks : Obligations.StepKeepsTheQueueOfTicks := by
  intro s t hs hpush h
  obtain rfl | ⟨x, i, u, hx, hi, -, hu, hblock, -⟩ := step_toBlock_cases h
  · exact hs
  · have hnot (v : Byte) : i ≠ .push v := fun e => hpush x hx v (by rw [hi, e])
    have hqu := QueueOfTicks.exec (hs.congr (t := s.take x) rfl rfl) hnot hu
    exact hqu.congr (congrArg Block.iq hblock) (congrArg Block.cycPrev hblock)

/-- Adjacent half-frames push different vectors (spec/60_exceptions.md R158). -/
theorem vectorFor_ne_succ {c : Params} (hc : c.vecTop ≠ c.vecMid) (h : Nat) : vectorFor c h ≠ vectorFor c (h + 1) := by
  unfold vectorFor
  rcases Nat.mod_two_eq_zero_or_one h with he | ho
  · rw [if_pos he, if_neg (by omega)]
    exact hc
  · rw [if_neg (by omega), if_pos (by omega)]
    exact hc.symm

theorem isChain_vectorsBetween {c : Params} (hc : c.vecTop ≠ c.vecMid) (h0 h1 : Nat) :
    (vectorsBetween c h0 h1).IsChain (· ≠ ·) :=
  List.isChain_map_of_isChain (vectorFor c) (fun a _ hab => hab ▸ vectorFor_ne_succ hc a) (List.isChain_range' _ _ 1)

/-- Settles O52: the queue is the vectors of consecutive half-frames. -/
theorem queueOfTicksAlternates : Obligations.QueueOfTicksAlternates := by
  rintro c s ⟨-, -, -, hvec, -⟩ ⟨-, hiq⟩
  rw [hiq]
  exact ⟨fun v hv => mem_vectorsBetween hv, isChain_vectorsBetween hvec _ _⟩

end Sys2Proof.Machine
end

section
/-! PROOFS. The memory space and its agents (spec/20_memory.md): the one total order of requests, the address decoder and the write
policy by view, and what a run of agents that keep their contract can do. -/

namespace Sys2Proof.Machine

/-! ## One request -/

/-- After a transaction that answers, the step answers its state, or after a poll the engine's decision on it. -/
theorem settle_next_cases (x : Taken) (u : State) : settle x (.next u) = .next u ∨
    ∃ e service, x.request = .poll e service ∧ settle x (.next u) = .next (followPoll x e service u) := by
  obtain ⟨a, r, stage, more, rest⟩ := x
  cases r with
  | word w => exact .inl rfl
  | named i => exact .inl rfl
  | poll e service => exact .inr ⟨e, service, rfl, rfl⟩

/-- The engine's decision after a poll changes nothing, or puts one `pop` and the service of the vector in front of the hold; the
second only where the hold may still pop and the poll was answered 1 (spec/60_exceptions.md R160). -/
theorem followPoll_cases (x : Taken) (e : Bool) (service : List Instr) (u : State) : followPoll x e service u = u ∨
    mayPop x.stage = true ∧ u.response = .bit true ∧ followPoll x e service u =
      { u with holds := resume x.agent .popDue (.named .pop :: (service.map .named ++ x.more)) x.rest } := by
  unfold followPoll
  split
  · next h =>
    simp only [Bool.and_eq_true, beq_iff_eq] at h
    exact .inr ⟨h.1.1, h.2, rfl⟩
  · exact .inl rfl

theorem pending_eq_true {s : State} : pending s = true ↔ s.iq ≠ [] := by
  simp [pending]

/-- A step with no request to take changes nothing. -/
theorem step_of_no_request {s : State} (h : nextRequest s.holds = none) : step s = .next s := by
  simp only [step, h]

/-- The step on a request that is no transaction. -/
theorem step_of_instrOf_error {s : State} {x : Taken} {e : Refusal} (hn : nextRequest s.holds = some x)
    (he : instrOf x.request = .error e) : step s = .refused e := by
  simp only [step, hn, he]

/-- The step on a request that is no poll is its transaction. -/
theorem step_eq_exec {s : State} {x : Taken} {i : Instr} (hn : nextRequest s.holds = some x) (hi : instrOf x.request = .ok i)
    (hload : isLoad i = true → s.started = false) (hpoll : ∀ e service, x.request ≠ .poll e service) :
    step s = exec i (s.take x) := by
  rw [step_of_nextRequest hn hi (loadGate_eq_none.mpr hload), settle_of_not_poll hpoll]

theorem not_poll_of_instrOf {r : Request} {i : Instr} (hi : instrOf r = .ok i) (h : i ≠ .hasPending) :
    ∀ e service, r ≠ .poll e service := by
  rintro e service rfl
  cases hi
  exact h rfl

theorem instrOf_named_ok {i : Instr} (h : WellFormed i) : instrOf (.named i) = .ok i := if_pos h

theorem instrOf_named_illFormed {i : Instr} (h : ¬ WellFormed i) : instrOf (.named i) = .error .illFormed := if_neg h

/-! ## The total order -/

/-- Settles O12, by the inversion of the step: a transaction leaves the holds as the taking did, and the engine's decision after a
poll puts a `pop` and the service of the vector in front of them, or nothing. -/
theorem requestsAreTakenInTheTotalOrder : Obligations.RequestsAreTakenInTheTotalOrder := by
  intro s t h
  obtain ⟨hn, rfl⟩ | ⟨x, i, u, hn, -, -, hu, hafter⟩ := step_next_cases h
  · rw [nextRequest_eq_none.mp hn]
    exact ⟨fun _ => rfl, nofun⟩
  · have hflat := flat_take hn
    have hholds : u.holds = (s.take x).holds := (exec_changesOnly hu).holds
    refine ⟨fun hnil => (List.cons_ne_nil _ _ (hflat.symm.trans hnil)).elim, fun y ys hcons => ?_⟩
    obtain ⟨rfl, rfl⟩ := List.cons.inj (hcons.symm.trans hflat)
    obtain ⟨-, rfl⟩ | ⟨e, service, hpoll, -, rfl⟩ := hafter
    · exact .inl (by rw [hholds])
    · rcases followPoll_cases x e service u with hsame | ⟨-, -, hpops⟩
      · exact .inl (by rw [hsame, hholds])
      · refine .inr ⟨e, service, hpoll, ?_⟩
        rw [hpops]
        simp [Function.comp_def]

/-- Settles O7: a word is no poll, so nothing follows its transaction. -/
theorem stepRunsTheDecodedWord : Obligations.StepRunsTheDecodedWord := by
  intro s t w i hn hw hi hload
  have hinstr : instrOf t.request = .ok i := by rw [hw, instrOf_word_ok hi]
  exact step_eq_exec hn hinstr hload (by simp [hw])

/-- Settles O8: a transaction by name is no poll, and an ill-formed one is none. -/
theorem stepRunsTheNamedTransaction : Obligations.StepRunsTheNamedTransaction := by
  intro s t i hn hr
  refine ⟨fun hwf hload => ?_, fun hwf => ?_⟩
  · have hi : instrOf t.request = .ok i := by rw [hr, instrOf_named_ok hwf]
    exact step_eq_exec hn hi hload (by simp [hr])
  · exact step_of_instrOf_error hn (by rw [hr, instrOf_named_illFormed hwf])

/-! ## The address decoder -/

/-- The four views of R40. -/
theorem region_cases (a : Addr) :
    (a.toNat ≤ 0x1FFF ∧ region a = (.PROG, a.toNat)) ∨
    (0x2000 ≤ a.toNat ∧ a.toNat ≤ 0x23FF ∧ region a = (.WRAM, a.toNat - 0x2000)) ∨
    (0x2400 ≤ a.toNat ∧ a.toNat ≤ 0x3FFF ∧ region a = (.VRAM, a.toNat - 0x2400)) ∨
    (0x4000 ≤ a.toNat ∧ region a = (.WRAM, (a.toNat - 0x4000) % 0x400)) := by
  by_cases hprog : a.toNat ≤ 0x1FFF
  · exact .inl ⟨hprog, region_program hprog⟩
  by_cases hwork : a.toNat ≤ 0x23FF
  · exact .inr (.inl ⟨by omega, hwork, region_working (by omega) hwork⟩)
  by_cases hvideo : a.toNat ≤ 0x3FFF
  · exact .inr (.inr (.inl ⟨by omega, hvideo, region_video (by omega) hvideo⟩))
  · exact .inr (.inr (.inr ⟨by omega, region_mirror (by omega)⟩))

/-- The address field `a[hi:lo]` as arithmetic. -/
theorem toNat_addrField (a : Addr) (lo len : Nat) : (a.extractLsb' lo len).toNat = a.toNat / 2 ^ lo % 2 ^ len := by
  rw [BitVec.extractLsb'_toNat, Nat.shiftRight_eq_div_pow]

/-- The chain of R76 is the ranges of R40. -/
theorem region_eq_regionChain (a : Addr) : region a = regionChain a := by
  have ha := a.isLt
  simp only [regionChain, ne_eq, ← BitVec.toNat_inj, toNat_addrField, BitVec.toNat_ofNat]
  obtain ⟨h, hr⟩ | ⟨h, h', hr⟩ | ⟨h, h', hr⟩ | ⟨h, hr⟩ := region_cases a
  · rw [hr, if_neg (by omega), if_pos (by omega), Nat.pow_zero, Nat.div_one, Nat.mod_eq_of_lt (by omega)]
  · rw [hr, if_neg (by omega), if_neg (by omega), if_pos (by omega)]
    exact congrArg (Prod.mk _) (by omega)
  · rw [hr, if_neg (by omega), if_neg (by omega), if_neg (by omega)]
    exact congrArg (Prod.mk _) (by omega)
  · rw [hr, if_pos (by omega)]
    exact congrArg (Prod.mk _) (by omega)

/-- A pattern filled with the free bits of an address whose top bits it spells is that address (R75). -/
theorem patternAddr_extractLsb' {m n : Nat} {a : Addr} (fixed : BitVec m) (h : m + n = 16) (htop : a.toNat / 2 ^ n = fixed.toNat) :
    patternAddr fixed (a.extractLsb' 0 n) = a := by
  apply BitVec.eq_of_toNat_eq
  rw [toNat_patternAddr _ _ h, toNat_addrField, ← htop, Nat.pow_zero, Nat.div_one, Nat.div_add_mod']

theorem resolve_patternAddr {m n : Nat} {a : Addr} (s : State) (fixed : BitVec m) (h : m + n = 16)
    (htop : a.toNat / 2 ^ n = fixed.toNat) : resolve s (patternAddr fixed (a.extractLsb' 0 n)) = resolve s a := by
  rw [patternAddr_extractLsb' fixed h htop]

/-- The row an address matches gives the decoder that address. -/
theorem exec_decodeA16 (a : Addr) (s : State) : exec (decodeA16 a) s = .next (resolve s a) := by
  have ha := a.isLt
  rw [decodeA16_eq]
  split
  · exact congrArg Host.Outcome.next (resolve_patternAddr (n := 13) s 0b000#3 rfl (by simp; omega))
  split
  · exact congrArg Host.Outcome.next (resolve_patternAddr (n := 10) s 0b001000#6 rfl (by simp; omega))
  split
  · exact congrArg Host.Outcome.next (resolve_patternAddr (n := 10) s 0b001001#6 rfl (by simp; omega))
  split
  · exact congrArg Host.Outcome.next (resolve_patternAddr (n := 11) s 0b00101#5 rfl (by simp; omega))
  split
  · exact congrArg Host.Outcome.next (resolve_patternAddr (n := 12) s 0b0011#4 rfl (by simp; omega))
  split
  · exact congrArg Host.Outcome.next (resolve_patternAddr (n := 14) s 0b01#2 rfl (by simp; omega))
  · exact congrArg Host.Outcome.next (resolve_patternAddr (n := 15) s 0b1#1 rfl (by simp; omega))

/-- Settles O13, each decode against the ranges of R40. -/
theorem addressDecodersAgree : Obligations.AddressDecodersAgree := fun a s =>
  ⟨region_eq_regionChain a, exec_decodeA16 a s, region_lt a⟩

/-- Settles O14: the decoder stays inside its store, and both reads answer in every state. -/
theorem memoryReadsAreTotalAndPure : Obligations.MemoryReadsAreTotalAndPure := fun a _ =>
  ⟨region_lt a, ⟨_, rfl⟩, ⟨_, rfl⟩⟩

/-! ### The addresses of a byte -/

theorem region_eq_program_iff {a : Addr} {i : Nat} (hi : i < 0x2000) : region a = (.PROG, i) ↔ a.toNat = i := by
  constructor
  · intro h
    obtain ⟨-, hr⟩ | ⟨-, -, hr⟩ | ⟨-, -, hr⟩ | ⟨-, hr⟩ := region_cases a <;>
      obtain ⟨hstore, hindex⟩ := Prod.mk.inj (h.symm.trans hr) <;> cases hstore
    exact hindex.symm
  · rintro rfl
    exact region_program (by omega)

theorem region_eq_video_iff {a : Addr} {i : Nat} (hi : i < 0x1C00) : region a = (.VRAM, i) ↔ a.toNat = 0x2400 + i := by
  constructor
  · intro h
    obtain ⟨-, hr⟩ | ⟨-, -, hr⟩ | ⟨hle, -, hr⟩ | ⟨-, hr⟩ := region_cases a <;>
      obtain ⟨hstore, hindex⟩ := Prod.mk.inj (h.symm.trans hr) <;> cases hstore
    omega
  · intro h
    rw [region_video (by omega) (by omega), h, Nat.add_sub_cancel_left]

/-- A working byte has its own address and one in each of the 48 kilobytes of the mirror view (R42). -/
theorem region_eq_working_iff {a : Addr} {i : Nat} (hi : i < 0x400) : region a = (.WRAM, i) ↔
    a.toNat = 0x2000 + i ∨ ∃ j, j < 48 ∧ a.toNat = 0x4000 + i + 0x400 * j := by
  have ha := a.isLt
  constructor
  · intro h
    obtain ⟨-, hr⟩ | ⟨hle, -, hr⟩ | ⟨-, -, hr⟩ | ⟨hle, hr⟩ := region_cases a <;>
      obtain ⟨hstore, hindex⟩ := Prod.mk.inj (h.symm.trans hr) <;> cases hstore
    · exact .inl (by omega)
    · exact .inr ⟨(a.toNat - 0x4000) / 0x400, by omega, by omega⟩
  · rintro (h | ⟨j, -, h⟩)
    · rw [region_working (by omega) (by omega), h, Nat.add_sub_cancel_left]
    · rw [region_mirror (by omega), show (a.toNat - 0x4000) % 0x400 = i by omega]

/-- Settles O16, store by store. -/
theorem aliasesOfAByte : Obligations.AliasesOfAByte := fun _ =>
  ⟨fun _ hi => region_eq_working_iff hi, fun _ hi => region_eq_program_iff hi, fun _ hi => region_eq_video_iff hi⟩

/-! ### The write policy by view -/

theorem exec_readByte_of_region {s : State} {a : Addr} {st : Store} {n : Nat} (h : region a = (st, n)) :
    exec (.readByte a) s = .next (s.answer (.byte ((s.store st).read n))) := by
  show Host.Outcome.next (s.answer (.byte (memRead s a))) = _
  rw [memRead, h]

theorem exec_loadByte_of_region {s : State} {a : Addr} {v : Byte} {st : Store} {n : Nat} (h : region a = (st, n)) :
    exec (.loadByte a v) s = .next ((s.setStore st ((s.store st).write n v)).answer .silent) := by
  show Host.Outcome.next ((memLoad s a v).answer .silent) = _
  rw [memLoad, h]

/-- Outside the program view the run-time write stores as the load does (spec/20_memory.md R43). -/
theorem exec_writeByte_other {s : State} {a : Addr} {v : Byte} (h : 0x2000 ≤ a.toNat) :
    exec (.writeByte a v) s = exec (.loadByte a v) s := by
  show Host.Outcome.next ((memWrite s a v).answer .silent) = _
  rw [memWrite_other h]
  rfl

/-- In the program view the run-time write is dropped (spec/20_memory.md R43). -/
theorem exec_writeByte_program {s : State} {a : Addr} {v : Byte} (h : a.toNat ≤ 0x1FFF) :
    exec (.writeByte a v) s = .next (s.answer .silent) := by
  show Host.Outcome.next ((memWrite s a v).answer .silent) = _
  rw [memWrite_program h]

/-- Both writes, outside the program view. -/
theorem exec_write_of_region {s : State} {a : Addr} {v : Byte} {st : Store} {n : Nat} (h : 0x2000 ≤ a.toNat)
    (hr : region a = (st, n)) {i : Instr} (hi : i = .writeByte a v ∨ i = .loadByte a v) :
    exec i s = .next ((s.setStore st ((s.store st).write n v)).answer .silent) := by
  rcases hi with rfl | rfl
  · rw [exec_writeByte_other h, exec_loadByte_of_region hr]
  · exact exec_loadByte_of_region hr

/-- Settles O18, by the store and index of each view. -/
theorem accessPolicyByView : Obligations.AccessPolicyByView := by
  intro s a v
  refine ⟨fun h => ?_, fun h h' => ?_, fun h h' => ?_, fun h => ?_⟩
  · have hr := region_program h
    exact ⟨exec_readByte_of_region hr, exec_writeByte_program h, exec_loadByte_of_region hr⟩
  · have hr := region_working h h'
    exact ⟨exec_readByte_of_region hr, fun _ => exec_write_of_region h hr⟩
  · have hr := region_video h h'
    exact ⟨exec_readByte_of_region hr, fun _ => exec_write_of_region (by omega) hr⟩
  · have hr : region a = (.WRAM, a.toNat % 0x400) := by
      rw [region_mirror h, show (a.toNat - 0x4000) % 0x400 = a.toNat % 0x400 by omega]
    exact ⟨exec_readByte_of_region hr, fun _ => exec_write_of_region (by omega) hr⟩

/-! ## Transactions that leave the queue alone -/

/-- Two states agree on everything the agents' contract speaks of. -/
structure SameContract (s t : State) : Prop where
  holds   : t.holds = s.holds
  started : t.started = s.started
  booted  : t.booted = s.booted
  tickDue : t.tickDue = s.tickDue
  iq      : t.iq = s.iq
  cycPrev : t.cycPrev = s.cycPrev

/-- Every transaction but `pop` and `tick` answers in every state (spec/60_exceptions.md R150). -/
theorem exec_answers {i : Instr} (hpop : i ≠ .pop) (htick : ∀ n, i ≠ .tick n) (s : State) : ∃ u, exec i s = .next u := by
  cases i with
  | pop => exact absurd rfl hpop
  | tick n => exact absurd rfl (htick n)
  | _ => exact ⟨_, rfl⟩

/-- What an agent other than the interrupt source issues, but for `pop`, answers in every state and leaves the queue and the record
of the count alone (spec/20_memory.md R50). -/
theorem exec_of_mayIssue {a : Agent} {i : Instr} (hissue : mayIssue a i = true) (ha : a ≠ .source) (hpop : i ≠ .pop) (s : State) :
    ∃ u, exec i s = .next u ∧ SameContract s u := by
  have htick (n : Count) : i ≠ .tick n := by
    rintro rfl
    simp [mayIssue, issuers, ha] at hissue
  have hpush (v : Byte) : i ≠ .push v := by
    rintro rfl
    simp [mayIssue, issuers] at hissue
  obtain ⟨u, hu⟩ := exec_answers hpop htick s
  have hframe := exec_changesOnly hu
  obtain ⟨hiq, hcyc⟩ := queue_not_mem_mayWrite (c := params) hpush hpop htick
  exact ⟨u, hu, hframe.holds, hframe.started, hframe.booted, hframe.tickDue, (hframe.items .IQ hiq).symm,
    (hframe.items .CYC_PREV hcyc).symm⟩

/-- The step on such a transaction, where it is no poll. -/
theorem step_of_mayIssue {s : State} {x : Taken} {a : Agent} {i : Instr} (hn : nextRequest s.holds = some x)
    (hi : instrOf x.request = .ok i) (hload : isLoad i = true → s.started = false) (hissue : mayIssue a i = true)
    (ha : a ≠ .source) (hpop : i ≠ .pop) (hpoll : i ≠ .hasPending) :
    ∃ u, step s = .next u ∧ SameContract (s.take x) u := by
  obtain ⟨u, hu, hsame⟩ := exec_of_mayIssue hissue ha hpop (s.take x)
  exact ⟨u, by rw [step_eq_exec hn hi hload (not_poll_of_instrOf hi hpoll), hu], hsame⟩

/-! ## The engine's requests -/

/-- `t` is what a step on a request of the engine leaves of `s`, its holds and the queue aside. -/
structure EngineTurn (s t : State) : Prop where
  step    : step s = .next t
  started : t.started = true
  tickDue : t.tickDue = true
  cycPrev : t.cycPrev = s.cycPrev

section Engine

variable {s : State} {r : Request} {stage : Stage} {rs : List Request} {hs : List Hold}

/-- A request of the engine leaves the rest of its hold, or it was a poll that leads to a `pop`: then a vector is pending and the
`pop` and the service of the vector stand in front of the rest. -/
theorem engineTurn_request (hn : nextRequest s.holds = some ⟨some .engine, r, stage, rs, hs⟩) (hr : requestOk .engine r = true) :
    ∃ t, EngineTurn s t ∧ t.iq = s.iq ∧
      (t.holds = resume (some .engine) (nextStage stage) rs hs ∨
        mayPop stage = true ∧ s.iq ≠ [] ∧ ∃ service : List Instr, service.all engineIssues = true ∧
          t.holds = ⟨some .engine, .named .pop :: (service.map .named ++ rs), .popDue⟩ :: hs) := by
  obtain ⟨i, hi, hissue, hpop, hservice⟩ := requestOk_cases hr
  obtain ⟨-, -, hload⟩ := engine_issues hissue
  obtain ⟨u, hu, hsame⟩ := exec_of_mayIssue hissue (by decide) hpop (s.take ⟨some .engine, r, stage, rs, hs⟩)
  have hstep := step_of_nextRequest hn hi (loadGate_eq_none.mpr (by simp [hload]))
  rw [hu] at hstep
  have hstarted : u.started = true := by rw [hsame.started]; simp
  rcases settle_next_cases ⟨some .engine, r, stage, rs, hs⟩ u with hset | ⟨e, service, rfl, hset⟩
  · exact ⟨u, ⟨hstep.trans hset, hstarted, hsame.tickDue, hsame.cycPrev⟩, hsame.iq, .inl hsame.holds⟩
  · cases hi
    have hpending : u.response = .bit (pending s) := by cases hu; rfl
    rw [hset] at hstep
    rcases followPoll_cases ⟨some .engine, .poll e service, stage, rs, hs⟩ e service u with hfollow | ⟨hmay, hbit, hfollow⟩
    · rw [hfollow] at hstep
      exact ⟨u, ⟨hstep, hstarted, hsame.tickDue, hsame.cycPrev⟩, hsame.iq, .inl hsame.holds⟩
    · rw [hfollow] at hstep
      have hiq : s.iq ≠ [] := pending_eq_true.mp (Response.bit.inj (hpending.symm.trans hbit))
      exact ⟨_, ⟨hstep, hstarted, hsame.tickDue, hsame.cycPrev⟩, hsame.iq, .inr ⟨hmay, hiq, service, hservice, rfl⟩⟩

/-- The `pop` a poll has led to takes the oldest vector. -/
theorem engineTurn_pop {v : Byte} {vs : List Byte} (hn : nextRequest s.holds = some ⟨some .engine, .named .pop, .popDue, rs, hs⟩)
    (hiq : s.iq = v :: vs) :
    ∃ t, EngineTurn s t ∧ t.iq = vs ∧ t.holds = resume (some .engine) .served rs hs := by
  have hexec : exec .pop (s.take ⟨some .engine, .named .pop, .popDue, rs, hs⟩) = _ := popVector_cons hiq
  have hstep := (step_eq_exec hn rfl nofun nofun).trans hexec
  exact ⟨_, ⟨hstep, by simp, rfl, rfl⟩, rfl, rfl⟩

end Engine

/-! ## Every step keeps the contract -/

/-- A state whose poll has led to a `pop` keeps the contract if the queue is not empty and what is left of the step and the holds
to come do. -/
theorem conforming_of_popDue {s : State} {more : List Request} {hs : List Hold} (hstarted : s.started = true)
    (hdue : s.tickDue = true) (hholds : s.holds = ⟨some .engine, .named .pop :: more, .popDue⟩ :: hs) (hiq : s.iq ≠ [])
    (hmore : stepOk false more = true) (ho : orderOk true true s.cycPrev.toNat hs = true) : Conforming s := by
  unfold Conforming
  rw [hholds]
  exact ⟨hstarted, hdue, by simp [midStepOk, hiq, hmore], ho⟩

/-- What the next request of a state that keeps the contract can be: none; a request of an engine step in progress; the `pop` its
poll has led to; or the first request of the holds to come. -/
theorem Conforming.cases {s : State} (h : Conforming s) :
    nextRequest s.holds = none ∨
    (∃ r stage rs hs, nextRequest s.holds = some ⟨some .engine, r, stage, rs, hs⟩ ∧ requestOk .engine r = true ∧
      stepOk false rs = true ∧ orderOk true true s.cycPrev.toNat hs = true) ∨
    (∃ rs hs, nextRequest s.holds = some ⟨some .engine, .named .pop, .popDue, rs, hs⟩ ∧ s.iq ≠ [] ∧ stepOk false rs = true ∧
      orderOk true true s.cycPrev.toNat hs = true) ∨
    ∃ x, nextRequest s.holds = some x ∧ orderOk s.tickDue (s.started || s.booted) s.cycPrev.toNat
      (⟨x.agent, x.request :: x.more, x.stage⟩ :: x.rest) = true := by
  unfold Conforming at h
  split at h
  · next e => exact .inl (by rw [e]; rfl)
  · next hd hs e =>
    split at h
    · next hmid =>
      obtain ⟨-, -, hok, ho⟩ := h
      obtain ⟨a, reqs, stage⟩ := hd
      simp only [midStep, Bool.and_eq_true, beq_iff_eq, Bool.not_eq_true', List.isEmpty_eq_false_iff] at hmid
      obtain ⟨⟨rfl, -⟩, hne⟩ := hmid
      obtain ⟨r, rs, rfl⟩ := List.exists_cons_of_ne_nil hne
      have hn : nextRequest s.holds = some ⟨some .engine, r, stage, rs, hs⟩ := by rw [e]; rfl
      unfold midStepOk at hok
      split at hok
      · next hstage =>
        simp only [Bool.and_eq_true, bne_iff_ne, beq_iff_eq, List.head?_cons, Option.some.injEq, List.tail_cons] at hok
        obtain ⟨⟨hiq, rfl⟩, hmore⟩ := hok
        cases hstage
        exact .inr (.inr (.inl ⟨rs, hs, hn, hiq, hmore, ho⟩))
      · obtain ⟨hr, -, hmore⟩ := stepOk_cons.mp hok
        exact .inr (.inl ⟨r, stage, rs, hs, hn, hr, hmore, ho⟩)
    · cases hn : nextRequest s.holds with
      | none => exact .inl rfl
      | some x => exact .inr (.inr (.inr ⟨x, rfl, orderOk_of_nextRequest h (e ▸ hn)⟩))

/-- A state that a request has left with the same queue and count keeps the contract if the holds to come do. -/
theorem conforming_of_sameContract {s u : State} {x : Taken} (hsame : SameContract (s.take x) u)
    (ho : orderOk (tickDueAfter s.tickDue x.agent) (s.started || x.agent == some .engine || bootedAfter s.booted x.agent)
      s.cycPrev.toNat (resume x.agent (nextStage x.stage) x.more x.rest) = true) : Conforming u :=
  conforming_of_orderOk (by rw [hsame.tickDue, hsame.started, hsame.booted, hsame.cycPrev, hsame.holds]; exact ho)

/-- A request of the presentation unit is a transaction that an agent other than the interrupt source issues, no load, no `pop` and
no poll. -/
theorem instrOf_of_presentationOk {fresh : Bool} {r : Request} {rs : List Request} (h : presentationOk fresh r rs = true) :
    ∃ i, instrOf r = .ok i ∧ (∃ a, mayIssue a i = true ∧ a ≠ .source) ∧ isLoad i = false ∧ i ≠ .pop ∧ i ≠ .hasPending := by
  simp only [presentationOk, Bool.or_eq_true, Bool.and_eq_true] at h
  rcases h with ⟨⟨-, hr⟩, -⟩ | ⟨-, hscan⟩
  · obtain ⟨i, hi, hissue, hpop, -⟩ := requestOk_cases hr
    obtain ⟨-, hpoll, hload⟩ := presentation_issues hissue
    exact ⟨i, hi, ⟨.presentation, hissue, by decide⟩, hload, hpop, hpoll⟩
  · obtain ⟨⟨a, hi⟩, -⟩ := scanLeft_cons hscan
    have hissue : mayIssue .engine (.readByte a) = true := by
      simp only [mayIssue, issuers]
      split <;> decide
    exact ⟨.readByte a, hi, ⟨.engine, hissue, by decide⟩, rfl, by simp, by simp⟩

/-- What is left of a hold of the presentation unit is the end of a scan, of no read where the hold is a latch operation. -/
theorem scanLeft_of_presentationOk {fresh : Bool} {r : Request} {rs : List Request} (h : presentationOk fresh r rs = true) :
    scanLeft rs = true := by
  simp only [presentationOk, Bool.or_eq_true, Bool.and_eq_true, List.isEmpty_iff] at h
  rcases h with ⟨⟨rfl, -⟩, -⟩ | ⟨-, hscan⟩
  · simp [scanLeft]
  · exact (scanLeft_cons hscan).2

section Resume

variable {due booted : Bool} {prev : Nat} {stage : Stage} {rs : List Request} {hs : List Hold}

theorem orderOk_resume_scan (hscan : scanLeft rs = true) (ho : orderOk due true prev hs = true) :
    orderOk due true prev (resume (some .presentation) (nextStage stage) rs hs) = true := by
  cases rs with
  | nil => exact ho
  | cons r rs =>
    have hstage : (nextStage stage == .fresh) = false := by cases stage <;> rfl
    exact orderOk_presentation.mpr ⟨by simp [presentationOk, hstage, hscan], ho⟩

theorem orderOk_resume_loads (hboot : booted = false) (hall : rs.all (requestOk .loader) = true)
    (ho : orderOk due booted prev hs = true) : orderOk due booted prev (resume (some .loader) stage rs hs) = true := by
  cases rs with
  | nil => exact ho
  | cons r rs => exact orderOk_loader.mpr ⟨hboot, hall, ho⟩

end Resume

theorem nextStage_cases (stage : Stage) : nextStage stage = .begun ∨ nextStage stage = .served := by
  cases stage <;> simp [nextStage]

section Turns

variable {s : State} {r : Request} {stage : Stage} {rs : List Request} {hs : List Hold}

/-- A request of an engine step: what is left of the step still keeps the contract, also with a `pop` and the service of a vector
in front. -/
theorem conforming_engine_request (hn : nextRequest s.holds = some ⟨some .engine, r, stage, rs, hs⟩)
    (hr : requestOk .engine r = true) (hmore : stepOk false rs = true) (ho : orderOk true true s.cycPrev.toNat hs = true) :
    ∃ t, step s = .next t ∧ Conforming t := by
  obtain ⟨t, ht, hiq, hholds⟩ := engineTurn_request hn hr
  rw [← ht.cycPrev] at ho
  rcases hholds with hholds | ⟨-, hne, service, hservice, hholds⟩
  · exact ⟨t, ht.step, conforming_of_resume ht.started ht.tickDue (nextStage_cases stage) hholds hmore ho⟩
  · exact ⟨t, ht.step, conforming_of_popDue ht.started ht.tickDue hholds (hiq ▸ hne) (stepOk_service hmore hservice) ho⟩

/-- The `pop` of an engine step. -/
theorem conforming_engine_pop (hn : nextRequest s.holds = some ⟨some .engine, .named .pop, .popDue, rs, hs⟩) (hiq : s.iq ≠ [])
    (hmore : stepOk false rs = true) (ho : orderOk true true s.cycPrev.toNat hs = true) :
    ∃ t, step s = .next t ∧ Conforming t := by
  obtain ⟨v, vs, hiq⟩ := List.exists_cons_of_ne_nil hiq
  obtain ⟨t, ht, -, hholds⟩ := engineTurn_pop hn hiq
  rw [← ht.cycPrev] at ho
  exact ⟨t, ht.step, conforming_of_resume ht.started ht.tickDue (.inr rfl) hholds hmore ho⟩

/-- The `tick` of the interrupt source: its count has not fallen, so it is not refused (spec/60_exceptions.md R156). -/
theorem conforming_tick (hn : nextRequest s.holds = some ⟨some .source, r, stage, rs, hs⟩)
    (ho : orderOk s.tickDue (s.started || s.booted) s.cycPrev.toNat (⟨some .source, r :: rs, stage⟩ :: hs) = true) :
    ∃ t, step s = .next t ∧ Conforming t := by
  obtain ⟨n, hi, -, rfl, hle, ho⟩ := orderOk_source.mp ho
  have hexec : exec (.tick n) (s.take ⟨some .source, r, stage, [], hs⟩) = _ := observe_params hle
  have hstep := step_eq_exec hn hi nofun (not_poll_of_instrOf hi (by simp))
  exact ⟨_, hstep.trans hexec, conforming_of_orderOk (by simpa [tickDueAfter, bootedAfter, resume] using ho)⟩

/-- A request of the presentation unit, a latch operation or a read of a scan: it changes nothing the contract speaks of, and what
is left of a scan is still the end of one. -/
theorem conforming_presentation (hn : nextRequest s.holds = some ⟨some .presentation, r, stage, rs, hs⟩)
    (ho : orderOk s.tickDue (s.started || s.booted) s.cycPrev.toNat (⟨some .presentation, r :: rs, stage⟩ :: hs) = true) :
    ∃ t, step s = .next t ∧ Conforming t := by
  obtain ⟨hp, ho⟩ := orderOk_presentation.mp ho
  obtain ⟨i, hi, ⟨a, hissue, ha⟩, hload, hpop, hpoll⟩ := instrOf_of_presentationOk hp
  obtain ⟨u, hstep, hsame⟩ := step_of_mayIssue hn hi (by simp [hload]) hissue ha hpop hpoll
  refine ⟨u, hstep, conforming_of_sameContract hsame ?_⟩
  have hleft := orderOk_resume_scan (stage := stage) (scanLeft_of_presentationOk hp) ho
  simpa [tickDueAfter, bootedAfter] using hleft

/-- A load: the boot is not over, so no load is refused (spec/70_reset_and_hazards.md R182). -/
theorem conforming_load (hn : nextRequest s.holds = some ⟨some .loader, r, stage, rs, hs⟩)
    (ho : orderOk s.tickDue (s.started || s.booted) s.cycPrev.toNat (⟨some .loader, r :: rs, stage⟩ :: hs) = true) :
    ∃ t, step s = .next t ∧ Conforming t := by
  obtain ⟨hboot, hall, ho⟩ := orderOk_loader.mp ho
  obtain ⟨hstarted, -⟩ := Bool.or_eq_false_iff.mp hboot
  obtain ⟨hr, hmore⟩ := Bool.and_eq_true_iff.mp (List.all_cons ▸ hall)
  obtain ⟨i, hi, hissue, hpop, -⟩ := requestOk_cases hr
  have hpoll : i ≠ .hasPending := by rintro rfl; cases hissue
  obtain ⟨u, hstep, hsame⟩ := step_of_mayIssue hn hi (fun _ => hstarted) hissue (by decide) hpop hpoll
  refine ⟨u, hstep, conforming_of_sameContract hsame ?_⟩
  have hleft := orderOk_resume_loads (stage := nextStage stage) hboot hmore ho
  have hengine : (Agent.loader == .engine) = false := rfl
  simpa [tickDueAfter, bootedAfter, hengine] using hleft

end Turns

/-- Settles O54, by the agent whose request is next. -/
theorem conformingAgentsNeverStopTheBlock : Obligations.ConformingAgentsNeverStopTheBlock := by
  intro s h
  obtain hn | ⟨r, stage, rs, hs, hn, hr, hmore, ho⟩ | ⟨rs, hs, hn, hiq, hmore, ho⟩ | ⟨⟨a, r, stage, rs, hs⟩, hn, ho⟩ := h.cases
  · exact ⟨s, step_of_no_request hn, h⟩
  · exact conforming_engine_request hn hr hmore ho
  · exact conforming_engine_pop hn hiq hmore ho
  · match a, hn, ho with
    | none, _, ho => cases ho
    | some .engine, hn, ho =>
      obtain ⟨-, -, hstep, ho⟩ := orderOk_engine.mp ho
      obtain ⟨hr, -, hmore⟩ := stepOk_cons.mp hstep
      exact conforming_engine_request hn hr hmore ho
    | some .source, hn, ho => exact conforming_tick hn ho
    | some .presentation, hn, ho => exact conforming_presentation hn ho
    | some .loader, hn, ho => exact conforming_load hn ho

/-! ## One engine step, run to its end -/

/-- Steps that take requests of one engine hold, with the holds `hs` to come after it, until none of it is left. -/
inductive EngineHoldRun (hs : List Hold) : State → State → Prop where
  | done {s : State} (hholds : s.holds = hs) : EngineHoldRun hs s s
  | step {s t u : State} {h : Hold} (hholds : s.holds = h :: hs) (hagent : h.agent = some .engine) (hreq : h.requests ≠ [])
      (hstep : step s = .next t) (hrun : EngineHoldRun hs t u) : EngineHoldRun hs s u

theorem stepsFrom_succ {s t : State} (h : step s = .next t) (n : Nat) : stepsFrom (n + 1) s = stepsFrom n t := by
  simp only [stepsFrom, h]

namespace EngineHoldRun

variable {hs : List Hold} {s u : State}

/-- Every step keeps the contract, so the run does. -/
theorem conforming (hrun : EngineHoldRun hs s u) (h : Conforming s) : Conforming u := by
  induction hrun with
  | done _ => exact h
  | step _ _ _ hstep _ ih =>
    obtain ⟨t, ht, hconf⟩ := conformingAgentsNeverStopTheBlock _ h
    cases hstep.symm.trans ht
    exact ih hconf

/-- The run as a number of steps: before each of them the hold is the first one. -/
theorem exists_stepsFrom (hrun : EngineHoldRun hs s u) : u.holds = hs ∧ ∃ n, stepsFrom n s = some u ∧
    ∀ k, k < n → ∃ x h, stepsFrom k s = some x ∧ x.holds = h :: hs ∧ h.agent = some .engine ∧ h.requests ≠ [] := by
  induction hrun with
  | done hholds => exact ⟨hholds, 0, rfl, fun k hk => absurd hk (Nat.not_lt_zero k)⟩
  | @step s t u h hholds hagent hreq hstep _ ih =>
    obtain ⟨hlast, n, hn, hway⟩ := ih
    refine ⟨hlast, n + 1, by rw [stepsFrom_succ hstep, hn], fun k hk => ?_⟩
    cases k with
    | zero => exact ⟨s, h, rfl, hholds, hagent, hreq⟩
    | succ k =>
      rw [stepsFrom_succ hstep]
      exact hway k (Nat.lt_of_succ_lt_succ hk)

end EngineHoldRun

theorem mayPop_of_nextStage {stage : Stage} (h : mayPop (nextStage stage) = true) : mayPop stage = true := by
  cases stage <;> simp_all [mayPop, nextStage]

/-- What is left of an engine step runs to its end and pops at most once more: each request shortens it, but for the one poll that
leads to a `pop`, after which no poll does. -/
theorem engineHold_runs {hs : List Hold} {stage : Stage} {fresh : Bool} {rs : List Request} {s : State}
    (hholds : s.holds = resume (some .engine) stage rs hs) (hok : stepOk fresh rs = true) (hdue : rs = [] → s.tickDue = true) :
    ∃ u, EngineHoldRun hs s u ∧ u.tickDue = true ∧ u.cycPrev = s.cycPrev ∧
      (u.iq = s.iq ∨ mayPop stage = true ∧ ∃ v, s.iq = v :: u.iq) := by
  match rs with
  | [] => exact ⟨s, .done hholds, hdue rfl, rfl, .inl rfl⟩
  | r :: rs =>
    have hn : nextRequest s.holds = some ⟨some .engine, r, stage, rs, hs⟩ := by rw [hholds]; rfl
    obtain ⟨hr, -, hmore⟩ := stepOk_cons.mp hok
    obtain ⟨t, ht, hiq, hleft | ⟨hmay, hne, service, hservice, hleft⟩⟩ := engineTurn_request hn hr
    · obtain ⟨u, hrun, hudue, hcyc, hpops⟩ := engineHold_runs hleft hmore fun _ => ht.tickDue
      refine ⟨u, .step hholds rfl (List.cons_ne_nil _ _) ht.step hrun, hudue, hcyc.trans ht.cycPrev, ?_⟩
      rw [← hiq]
      exact hpops.imp id fun ⟨hmay, hpopped⟩ => ⟨mayPop_of_nextStage hmay, hpopped⟩
    · obtain ⟨v, vs, hvs⟩ := List.exists_cons_of_ne_nil hne
      obtain ⟨t', ht', hiq', hleft'⟩ := engineTurn_pop (by rw [hleft]; rfl) (hiq.trans hvs)
      obtain ⟨u, hrun, hudue, hcyc, hpops⟩ := engineHold_runs hleft' (stepOk_service hmore hservice) fun _ => ht'.tickDue
      have hquiet : u.iq = t'.iq := hpops.resolve_right fun h => nomatch h.1
      exact ⟨u, .step hholds rfl (List.cons_ne_nil _ _) ht.step (.step hleft rfl (List.cons_ne_nil _ _) ht'.step hrun), hudue,
        hcyc.trans (ht'.cycPrev.trans ht.cycPrev), .inr ⟨hmay, v, by rw [hvs, hquiet, hiq']⟩⟩
  termination_by ((mayPop stage).toNat, rs.length)
  decreasing_by
  · cases stage <;> simp [Prod.lex_def, mayPop, nextStage]
  · exact Prod.Lex.left _ _ (by rw [hmay]; decide)

/-- Settles O59: the step is a fresh hold of the engine, which runs to its end. -/
theorem engineStepRunsWholeAndPopsAtMostOnce : Obligations.EngineStepRunsWholeAndPopsAtMostOnce := by
  rintro s ⟨-, reqs, -⟩ hs hholds rfl hreq rfl hconf
  obtain ⟨r, rs, rfl⟩ := List.exists_cons_of_ne_nil hreq
  have ho : orderOk s.tickDue (s.started || s.booted) s.cycPrev.toNat (⟨some .engine, r :: rs, .fresh⟩ :: hs) = true := by
    unfold Conforming at hconf
    rw [hholds] at hconf
    exact hconf
  obtain ⟨-, -, hok, -⟩ := orderOk_engine.mp ho
  obtain ⟨u, hrun, hdue, hcyc, hpops⟩ := engineHold_runs (stage := .fresh) hholds hok nofun
  obtain ⟨hlast, n, hn, hway⟩ := hrun.exists_stepsFrom
  exact ⟨n, u, hn, hlast, hdue, hrun.conforming hconf, hpops.imp id And.right, hcyc, hway⟩

/-! ## Engine steps and `tick`s in an order of holds -/

/-- What the first hold of an order that keeps the contract can be, and what the holds after it keep. -/
theorem orderOk_cons_cases {due booted : Bool} {prev : Nat} {h : Hold} {hs : List Hold}
    (ho : orderOk due booted prev (h :: hs) = true) :
    (h.requests = [] ∧ orderOk due booted prev hs = true) ∨
    (h.requests ≠ [] ∧ h.agent = some .engine ∧ due = false ∧ stepOk true h.requests = true ∧ orderOk true true prev hs = true) ∨
    (∃ r n, h.requests = [r] ∧ h.agent = some .source ∧ instrOf r = .ok (.tick n) ∧ due = true ∧
      orderOk false true n.toNat hs = true) ∨
    (h.requests ≠ [] ∧ h.agent = some .presentation ∧ orderOk due true prev hs = true) ∨
    (h.requests ≠ [] ∧ h.agent = some .loader ∧ booted = false ∧ orderOk due booted prev hs = true) := by
  obtain ⟨a, reqs, stage⟩ := h
  match a, reqs, ho with
  | _, [], ho => exact .inl ⟨rfl, by rw [orderOk] at ho; exact ho⟩
  | none, _ :: _, ho => cases ho
  | some .engine, r :: rs, ho =>
    obtain ⟨hdue, -, hstep, ho⟩ := orderOk_engine.mp ho
    exact .inr (.inl ⟨List.cons_ne_nil r rs, rfl, hdue, hstep, ho⟩)
  | some .source, r :: rs, ho =>
    obtain ⟨n, hi, hdue, rfl, -, ho⟩ := orderOk_source.mp ho
    exact .inr (.inr (.inl ⟨r, n, rfl, rfl, hi, hdue, ho⟩))
  | some .presentation, r :: rs, ho =>
    exact .inr (.inr (.inr (.inl ⟨List.cons_ne_nil r rs, rfl, (orderOk_presentation.mp ho).2⟩)))
  | some .loader, r :: rs, ho =>
    obtain ⟨hboot, -, ho⟩ := orderOk_loader.mp ho
    exact .inr (.inr (.inr (.inr ⟨List.cons_ne_nil r rs, rfl, hboot, ho⟩)))

/-- The holds after the first keep the contract, and the boot is over for them once a hold of another agent than the loader has
stood before. -/
theorem orderOk_tail {due booted : Bool} {prev : Nat} {h : Hold} {hs : List Hold} (ho : orderOk due booted prev (h :: hs) = true) :
    ∃ due' booted' prev', orderOk due' booted' prev' hs = true ∧ (booted = true → booted' = true) ∧
      (h.requests ≠ [] → h.agent ≠ some .loader → booted' = true) := by
  obtain ⟨hnil, ho⟩ | ⟨-, -, -, -, ho⟩ | ⟨-, n, -, -, -, -, ho⟩ | ⟨-, -, ho⟩ | ⟨-, hloader, -, ho⟩ := orderOk_cons_cases ho
  · exact ⟨due, booted, prev, ho, id, fun hne => absurd hnil hne⟩
  · exact ⟨true, true, prev, ho, fun _ => rfl, fun _ _ => rfl⟩
  · exact ⟨false, true, n.toNat, ho, fun _ => rfl, fun _ _ => rfl⟩
  · exact ⟨due, true, prev, ho, fun _ => rfl, fun _ _ => rfl⟩
  · exact ⟨due, booted, prev, ho, id, fun _ hne => absurd hloader hne⟩

/-- Every hold of an order that keeps the contract is the first of one that does. -/
theorem orderOk_at : ∀ {k : Nat} {hs : List Hold} {due booted : Bool} {prev : Nat} {h : Hold}, orderOk due booted prev hs = true →
    hs[k]? = some h →
    ∃ due' booted' prev', orderOk due' booted' prev' (h :: hs.drop (k + 1)) = true ∧ (booted = true → booted' = true)
  | _, [], _, _, _, _, _, hk => by simp at hk
  | 0, hd :: hs, due, booted, prev, h, ho, hk => by
    cases hk
    exact ⟨due, booted, prev, ho, id⟩
  | k + 1, hd :: hs, due, booted, prev, h, ho, hk => by
    obtain ⟨due', booted', prev', ho', hboot, -⟩ := orderOk_tail ho
    obtain ⟨due'', booted'', prev'', ho'', hboot'⟩ := orderOk_at ho' hk
    exact ⟨due'', booted'', prev'', ho'', hboot' ∘ hboot⟩

/-- A hold of the loader stands before the boot is over. -/
theorem not_booted_of_loader {due booted : Bool} {prev : Nat} {h : Hold} {hs : List Hold}
    (ho : orderOk due booted prev (h :: hs) = true) (hreq : h.requests ≠ []) (hloader : h.agent = some .loader) :
    booted = false := by
  obtain ⟨a, reqs, stage⟩ := h
  obtain rfl : a = some .loader := hloader
  obtain ⟨r, rs, rfl⟩ := List.exists_cons_of_ne_nil hreq
  exact (orderOk_loader.mp ho).1

/-- The loader's holds stand before those of the other three agents (spec/20_memory.md R50 (d)). -/
theorem loader_before_others {hs : List Hold} {due booted : Bool} {prev i j : Nat} {h h' : Hold}
    (ho : orderOk due booted prev hs = true) (hi : hs[i]? = some h) (hj : hs[j]? = some h') (hreq : h.requests ≠ [])
    (hreq' : h'.requests ≠ []) (hloader : h.agent = some .loader) (hother : h'.agent ≠ some .loader) : i < j := by
  by_contra hle
  have hne : i ≠ j := by
    rintro rfl
    cases hi.symm.trans hj
    exact hother hloader
  obtain ⟨due₁, booted₁, prev₁, ho₁, -⟩ := orderOk_at ho hj
  obtain ⟨due₂, booted₂, prev₂, ho₂, -, hboot₂⟩ := orderOk_tail ho₁
  have hi' : (hs.drop (j + 1))[i - (j + 1)]? = some h := by
    rw [List.getElem?_drop, show j + 1 + (i - (j + 1)) = i by omega, hi]
  obtain ⟨due₃, booted₃, prev₃, ho₃, hboot₃⟩ := orderOk_at ho₂ hi'
  have htrue := hboot₃ (hboot₂ hreq' hother)
  rw [not_booted_of_loader ho₃ hreq hloader] at htrue
  cases htrue

/-- A hold of the interrupt source is one `tick`, and a poll stands first or last in its engine step. -/
theorem hold_of_orderOk {due booted : Bool} {prev : Nat} {h : Hold} {hs : List Hold} (ho : orderOk due booted prev (h :: hs) = true)
    (hreq : h.requests ≠ []) :
    (h.agent = some .source → ∃ r n, h.requests = [r] ∧ instrOf r = .ok (.tick n)) ∧
    (h.agent = some .engine → ∀ k e service, h.requests[k]? = some (.poll e service) → k = 0 ∨ k + 1 = h.requests.length) := by
  obtain ⟨hnil, -⟩ | ⟨-, hag, -, hstep, -⟩ | ⟨r, n, hr, hag, hi, -⟩ | ⟨-, hag, -⟩ | ⟨-, hag, -⟩ := orderOk_cons_cases ho
  · exact absurd hnil hreq
  · rw [hag]
    exact ⟨nofun, fun _ k e service hk => (stepOk_poll hstep hk).imp And.right id⟩
  · rw [hag]
    exact ⟨fun _ => ⟨r, n, hr, hi⟩, nofun⟩
  · rw [hag]
    exact ⟨nofun, nofun⟩
  · rw [hag]
    exact ⟨nofun, nofun⟩

theorem unitTurns_cons_unit {h : Hold} {a : Agent} (hs : List Hold) (hreq : h.requests ≠ []) (hag : h.agent = some a)
    (ha : a = .engine ∨ a = .source) : unitTurns (h :: hs) = a :: unitTurns hs := by
  rcases ha with rfl | rfl <;> simp [unitTurns, hreq, hag]

theorem unitTurns_cons_other {h : Hold} (hs : List Hold)
    (ha : h.requests = [] ∨ h.agent = some .presentation ∨ h.agent = some .loader) : unitTurns (h :: hs) = unitTurns hs := by
  rcases ha with hnil | hag | hag
  · simp [unitTurns, hnil]
  · cases hreq : h.requests.isEmpty <;> simp [unitTurns, hreq, hag]
  · cases hreq : h.requests.isEmpty <;> simp [unitTurns, hreq, hag]

/-- The turns of the execution unit alternate: the engine is at the even ones, or at the odd ones where a `tick` is due first
(spec/60_exceptions.md R164 (d)). -/
theorem unitTurns_alternate : ∀ {hs : List Hold} {due booted : Bool} {prev k : Nat} {a : Agent},
    orderOk due booted prev hs = true → (unitTurns hs)[k]? = some a → a = if (k + due.toNat) % 2 = 0 then .engine else .source
  | [], _, _, _, _, _, _, hk => by simp [unitTurns] at hk
  | h :: hs, due, booted, prev, k, a, horder, hk => by
    obtain ⟨hnil, ho⟩ | ⟨hreq, hag, rfl, -, ho⟩ | ⟨r, n, hr, hag, -, rfl, ho⟩ | ⟨-, hag, ho⟩ | ⟨-, hag, -, ho⟩ :=
      orderOk_cons_cases horder
    · rw [unitTurns_cons_other hs (.inl hnil)] at hk
      exact unitTurns_alternate ho hk
    · rw [unitTurns_cons_unit hs hreq hag (.inl rfl)] at hk
      cases k with
      | zero => cases hk; rfl
      | succ k => exact unitTurns_alternate (k := k) ho hk
    · rw [unitTurns_cons_unit hs (by simp [hr]) hag (.inr rfl)] at hk
      cases k with
      | zero => cases hk; rfl
      | succ k =>
        rw [unitTurns_alternate (k := k) ho hk]
        simp [Nat.add_assoc]
    · rw [unitTurns_cons_other hs (.inr (.inl hag))] at hk
      exact unitTurns_alternate ho hk
    · rw [unitTurns_cons_other hs (.inr (.inr hag))] at hk
      exact unitTurns_alternate ho hk

/-- With no `tick` due, no engine step is in progress, so all the holds are an order that keeps the contract. -/
theorem Conforming.orderOk_holds {s : State} (h : Conforming s) (hdue : s.tickDue = false) :
    orderOk false (s.started || s.booted) s.cycPrev.toNat s.holds = true := by
  unfold Conforming at h
  split at h
  · next e => rw [e]; rfl
  · next hd hs e =>
    split at h
    · obtain ⟨-, hdue', -⟩ := h
      cases hdue.symm.trans hdue'
    · rw [e, ← hdue]
      exact h

/-- Settles O60: with no `tick` due the contract is that of an order of holds. -/
theorem stepsAndTicksAlternate : Obligations.StepsAndTicksAlternate := by
  intro s h hdue
  have ho := h.orderOk_holds hdue
  refine ⟨fun k a hk => unitTurns_alternate ho hk,
    fun i j hd hd' hi hj hreq hreq' => loader_before_others ho hi hj hreq hreq', fun hd hmem hreq => ?_⟩
  obtain ⟨k, hk⟩ := List.mem_iff_getElem?.mp hmem
  obtain ⟨_, _, _, ho', -⟩ := orderOk_at ho hk
  exact hold_of_orderOk ho' hreq

end Sys2Proof.Machine
end

section
/-! PROOFS. The encoding (spec/30_encoding.md): the rows of R73 as one table of `op` and must-be-zero masks, the two port decodes, the
seven address patterns, the round trips between words and transactions, and the expansion of a pseudo-transaction. -/

namespace Sys2Proof

/-! ## The columns of a T40 word -/

theorem decode_t40 (c : Params) (op : BitVec 8) (sel data : BitVec 16) :
    decode c (.t40 (t40 op sel data)) = decodeFields c op sel data :=
  decodeT40_t40 c op sel data

theorem lowField_dataOf (w : BitVec 40) : lowField (dataOf w) = w.extractLsb' 0 8 :=
  BitVec.extractLsb'_extractLsb'_of_le (by decide)

/-- The low bits of `sel` are bits of the word from 16 up. -/
theorem extractLsb'_selOf (w : BitVec 40) {n : Nat} (h : n ≤ 16) : (selOf w).extractLsb' 0 n = w.extractLsb' 16 n := by
  ext k hk
  simp [selOf]
  omega

theorem latchFieldOf_selOf (w : BitVec 40) : latchFieldOf (selOf w) = if w.getLsbD 19 then .B else .A := by
  simp [latchFieldOf, selOf]

/-- A latch selector whose upper bits are zero is its field and its index (R73). -/
theorem latchSel_of_and {sel : BitVec 16} (h : sel &&& 65520#16 = 0#16) : latchSel (latchFieldOf sel) (latchIndexOf sel) = sel := by
  have hlow : sel.toNat / 2 ^ 4 * 2 ^ 4 = 0 := (and_top_eq sel 0 4 (by decide)).mp h
  have hsel : sel = (sel.setWidth 4).setWidth 16 := BitVec.eq_of_toNat_eq (by simp; omega)
  have hall : ∀ k : BitVec 4, latchSel (latchFieldOf (k.setWidth 16)) (latchIndexOf (k.setWidth 16)) = k.setWidth 16 := by decide
  rw [hsel]
  exact hall _

/-! ## The rows of R73 -/

/-- Each `op` names one row. -/
theorem find?_op_t40Rows {c : Params} : ∀ r ∈ t40Rows c, (t40Rows c).find? (fun r' => r'.op == r.op) = some r := by
  simp [t40Rows]

/-- A word with the `op` of a row is decoded by that row. -/
theorem decodeFields_of_mem {c : Params} {r : T40Row} (hr : r ∈ t40Rows c) (sel data : BitVec 16) :
    decodeFields c r.op sel data =
      if sel &&& r.selMbz = 0 ∧ data &&& r.dataMbz = 0 then .ok (r.build sel data) else .error (.mustBeZero r.op) := by
  rw [decodeFields, find?_op_t40Rows r hr]

/-- What a T40 word that decodes is: one of a row, with no must-be-zero bit set. -/
theorem decodeFields_ok_cases {c : Params} {op : BitVec 8} {sel data : BitVec 16} {i : Instr}
    (h : decodeFields c op sel data = .ok i) : ∃ r ∈ t40Rows c, r.op = op ∧ sel &&& r.selMbz = 0 ∧ data &&& r.dataMbz = 0 ∧
      r.build sel data = i := by
  unfold decodeFields at h
  split at h
  · cases h
  · next r hr =>
    split at h
    · next hmbz =>
      cases h
      obtain ⟨hsel, hdata⟩ := hmbz
      have hop : r.op = op := by simpa using List.find?_some hr
      exact ⟨r, List.mem_of_find?_eq_some hr, hop, hsel, hdata, rfl⟩
    · cases h

/-- The mask and match values of a row (R73): `op` whole, the must-be-zero bits zero. -/
theorem and_rowMask_eq_iff {w : BitVec 40} {op : BitVec 8} {selMbz dataMbz : BitVec 16} :
    w &&& t40 0xFF selMbz dataMbz = t40 op 0 0 ↔ opOf w = op ∧ selOf w &&& selMbz = 0 ∧ dataOf w &&& dataMbz = 0 := by
  have hop : opOf w &&& 0xFF = opOf w := BitVec.and_allOnes
  rw [← t40_fields w, t40_and, t40_inj, t40_fields, hop]

/-- The must-be-zero mask of a row, over the whole word. -/
theorem and_mbz_eq_zero_iff {w : BitVec 40} {selMbz dataMbz : BitVec 16} :
    w &&& t40 0 selMbz dataMbz = 0 ↔ selOf w &&& selMbz = 0 ∧ dataOf w &&& dataMbz = 0 := by
  have hzero : (0 : BitVec 40) = t40 0 0 0 := rfl
  rw [← t40_fields w, t40_and, hzero, t40_inj, t40_fields, BitVec.and_comm (opOf w)]
  simp

/-- A word that matches a row is the transaction of that row (R73). -/
theorem decode_of_rowMask {c : Params} {w : BitVec 40} {r : T40Row} (hr : r ∈ t40Rows c)
    (h : w &&& t40 0xFF r.selMbz r.dataMbz = t40 r.op 0 0) : decode c (.t40 w) = .ok (r.build (selOf w) (dataOf w)) := by
  obtain ⟨hop, hsel, hdata⟩ := and_rowMask_eq_iff.mp h
  rw [decode, decodeT40, hop, decodeFields_of_mem hr, if_pos ⟨hsel, hdata⟩]

/-- A must-be-zero bit of the row set makes the word invalid (R74). -/
theorem decode_of_mbz {c : Params} {w : BitVec 40} {r : T40Row} (hr : r ∈ t40Rows c) (hop : r.op = opOf w)
    (h : w &&& t40 0 r.selMbz r.dataMbz ≠ 0) : decode c (.t40 w) = .error (.mustBeZero (opOf w)) := by
  rw [decode, decodeT40, ← hop, decodeFields_of_mem hr, if_neg (mt and_mbz_eq_zero_iff.mpr h)]

theorem decode_of_reserved (c : Params) {w : BitVec 40} (h : opOf w ∉ listedOps) :
    decode c (.t40 w) = .error (.reservedOp (opOf w)) :=
  decodeFields_reserved c h _ _

/-- Settles O4: each clause is a row of the table, its operands read from the columns. -/
theorem wordMatchingARowIsItsTransaction : Obligations.WordMatchingARowIsItsTransaction := by
  intro c w addr port byte field bit
  have hbyte : lowField (dataOf w) = byte := lowField_dataOf w
  have hfield : latchFieldOf (selOf w) = field := latchFieldOf_selOf w
  have hbit : latchIndexOf (selOf w) = bit := extractLsb'_selOf w (by decide)
  have hmbz (hc : c.portWidth = 8) : portMbz c = 0xFF00 := by rw [portMbz, hc]; rfl
  have hport {dataMbz op} (h : w &&& t40 0xFF 0xFF00 dataMbz = t40 op 0 0) : selOf w = port := by
    obtain ⟨-, hsel, -⟩ := and_rowMask_eq_iff.mp h
    rw [← inField_lowField hsel, lowField, extractLsb'_selOf w (by decide)]
    rfl
  have hrow := fun r hr => decode_of_rowMask (c := c) (w := w) (r := r) hr
  simp only [t40Rows, List.forall_mem_cons, hbyte, hfield, hbit] at hrow
  obtain ⟨readByte, writeByte, loadByte, readWord, writeWord, portIn, portOut, push, pop, hasPending, latchSet, latchClear, -⟩ :=
    hrow
  refine ⟨readByte, writeByte, loadByte, readWord, writeWord, fun hc h => ?_, fun hc h => ?_, push, pop, hasPending, latchSet,
    latchClear⟩
  · rw [← hport (op := 0x08) (dataMbz := 0xFFFF) h]
    exact portIn (by rw [hmbz hc]; exact h)
  · rw [← hport (op := 0x09) (dataMbz := 0xFF00) h]
    exact portOut (by rw [hmbz hc]; exact h)

/-! ## The port decodes of R77 and R78 -/

section Ports

variable {c : Params}

theorem decode_portIn {p : Port} (hp : fits c p = true) : decode c (.t40 (t40 0x08 p 0)) = .ok (portInRow c p) := by
  rw [decode_t40]
  exact (decodeFields_portIn c p 0).trans (if_pos ⟨hp, rfl⟩)

theorem decode_portIn_wide {p : Port} (hp : 2 ^ c.portWidth ≤ p.toNat) :
    decode c (.t40 (t40 0x08 p 0)) = .error (.mustBeZero 0x08) := by
  rw [decode_t40]
  exact (decodeFields_portIn c p 0).trans (if_neg (by simp [fits, hp]))

theorem decode_portOut {p : Port} (hp : fits c p = true) (d : Byte) :
    decode c (.t40 (t40 0x09 p (inField d))) = .ok (portOutRow c p d) := by
  rw [decode_t40]
  refine (decodeFields_portOut c p _).trans ?_
  rw [if_pos ⟨hp, inField_and d⟩, lowField_inField]

theorem decode_portOut_wide {p : Port} (hp : 2 ^ c.portWidth ≤ p.toNat) (d : Byte) :
    decode c (.t40 (t40 0x09 p (inField d))) = .error (.mustBeZero 0x09) := by
  rw [decode_t40]
  exact (decodeFields_portOut c p _).trans (if_neg (by simp [fits, hp]))

/-- The row of a `port_in`, by its port number (R77). -/
theorem portInRow_eq (c : Params) (p : Port) : portInRow c p =
    if p = c.portInA then .inA else if p = c.portInB then .inB else if p = c.portShiftRead then .inShift
    else if p = c.portWdgR then .inWdg else .inUnk p := by
  unfold portInRow readDevice
  split_ifs <;> rfl

/-- The row of a `port_out`, by its port number (R78). -/
theorem portOutRow_eq (c : Params) (p : Port) (d : Byte) : portOutRow c p d =
    if p = c.portShiftOffset then .outOffset d else if p = c.portShiftData then .outData d
    else if p = c.portWdgW then .outWdg d else .outUnk p d := by
  unfold portOutRow writeDevice
  split_ifs <;> rfl

theorem readDevice_eq_unrecognised {p : Port} : readDevice c p = .unrecognised ↔
    p ≠ c.portInA ∧ p ≠ c.portInB ∧ p ≠ c.portShiftRead ∧ p ≠ c.portWdgR := by
  unfold readDevice
  split_ifs <;> simp_all

theorem writeDevice_eq_unrecognised {p : Port} : writeDevice c p = .unrecognised ↔
    p ≠ c.portShiftOffset ∧ p ≠ c.portShiftData ∧ p ≠ c.portWdgW := by
  unfold writeDevice
  split_ifs <;> simp_all

@[simp] theorem portInRow_portInA : portInRow c c.portInA = .inA := by
  rw [portInRow_eq, if_pos rfl]

@[simp] theorem portOutRow_portShiftOffset (d : Byte) : portOutRow c c.portShiftOffset d = .outOffset d := by
  rw [portOutRow_eq, if_pos rfl]

theorem portInRow_unrecognised {p : Port} (h : readDevice c p = .unrecognised) : portInRow c p = .inUnk p := by
  rw [portInRow, h]

theorem portOutRow_unrecognised {p : Port} (h : writeDevice c p = .unrecognised) (d : Byte) :
    portOutRow c p d = .outUnk p d := by
  rw [portOutRow, h]

section Valid

variable (hc : c.Valid)
include hc

/-- The numbers of the read devices differ (R6), so each reaches its own device. -/
theorem Params.Valid.portInRow_devices : portInRow c c.portInB = .inB ∧ portInRow c c.portShiftRead = .inShift ∧
    portInRow c c.portWdgR = .inWdg := by
  obtain ⟨-, hread, -⟩ := hc
  simp only [List.nodup_cons, List.mem_cons, List.not_mem_nil, or_false, not_or] at hread
  obtain ⟨⟨hAB, hAS, hAW⟩, ⟨hBS, hBW⟩, hSW, -⟩ := hread
  simp [portInRow_eq, hAB, hAS, hAW, hBS, hBW, hSW, eq_comm]

/-- The numbers of the write devices differ (R6), so each reaches its own device. -/
theorem Params.Valid.portOutRow_devices (d : Byte) : portOutRow c c.portShiftData d = .outData d ∧
    portOutRow c c.portWdgW d = .outWdg d := by
  obtain ⟨-, -, hwrite, -⟩ := hc
  simp only [List.nodup_cons, List.mem_cons, List.not_mem_nil, or_false, not_or] at hwrite
  obtain ⟨⟨hOD, hOW⟩, hDW, -⟩ := hwrite
  simp [portOutRow_eq, hOD, hOW, hDW, eq_comm]

end Valid

end Ports

/-- Settles O5: a number of `PORT_WIDTH` bits takes its row of R77, a wider one sets a must-be-zero bit. -/
theorem portReadReachesItsDevice : Obligations.PortReadReachesItsDevice := by
  intro c hc row
  obtain ⟨hB, hS, hW⟩ := hc.portInRow_devices
  have hdevice {p : Port} {i : Instr} (hp : p ∈ c.ports) (hi : portInRow c p = i) : row p = .ok i :=
    hi ▸ decode_portIn (hc.fits_of_mem hp)
  refine ⟨hdevice (by simp [Params.ports]) portInRow_portInA, hdevice (by simp [Params.ports]) hB,
    hdevice (by simp [Params.ports]) hS, hdevice (by simp [Params.ports]) hW,
    fun p => ⟨fun hp hA hB hS hW => ?_, decode_portIn_wide⟩⟩
  have hunk := portInRow_unrecognised (readDevice_eq_unrecognised.mpr ⟨hA, hB, hS, hW⟩)
  exact hunk ▸ decode_portIn (decide_eq_true hp)

/-- Settles O6: the same on the write side. -/
theorem portWriteReachesItsDevice : Obligations.PortWriteReachesItsDevice := by
  intro c hc d row
  obtain ⟨hD, hW⟩ := hc.portOutRow_devices d
  have hdevice {p : Port} {i : Instr} (hp : p ∈ c.ports) (hi : portOutRow c p d = i) : row p = .ok i :=
    hi ▸ decode_portOut (hc.fits_of_mem hp) d
  refine ⟨hdevice (by simp [Params.ports]) (portOutRow_portShiftOffset d), hdevice (by simp [Params.ports]) hD,
    hdevice (by simp [Params.ports]) hW, fun p => ⟨fun hp hO hD hW => ?_, fun hp => decode_portOut_wide hp d⟩⟩
  have hunk := portOutRow_unrecognised (writeDevice_eq_unrecognised.mpr ⟨hO, hD, hW⟩) d
  exact hunk ▸ decode_portOut (decide_eq_true hp) d

/-! ## The address patterns of R75 -/

/-- The free bits of the address a pattern spells. -/
theorem extractLsb'_patternAddr {m n : Nat} (fixed : BitVec m) (free : BitVec n) (h : m + n = 16) :
    (patternAddr fixed free).extractLsb' 0 n = free := by
  apply BitVec.eq_of_toNat_eq
  rw [Machine.toNat_addrField, toNat_patternAddr _ _ h, Nat.pow_zero, Nat.div_one, Nat.mul_add_mod_self_right,
    Nat.mod_eq_of_lt free.isLt]

/-- The word of the row an address selects is that address. -/
theorem encodeOne_decodeA16 (c : Params) (a : Addr) : encodeOne c (decodeA16 a) = some (.a16 a) := by
  have ha := a.isLt
  have hword {m n : Nat} (fixed : BitVec m) (h : m + n = 16) (htop : a.toNat / 2 ^ n = fixed.toNat) :
      some (TWord.a16 (patternAddr fixed (a.extractLsb' 0 n))) = some (.a16 a) := by
    rw [Machine.patternAddr_extractLsb' fixed h htop]
  rw [decodeA16_eq]
  split_ifs
  · exact hword (n := 13) 0b000#3 rfl (by simp; omega)
  · exact hword (n := 10) 0b001000#6 rfl (by simp; omega)
  · exact hword (n := 10) 0b001001#6 rfl (by simp; omega)
  · exact hword (n := 11) 0b00101#5 rfl (by simp; omega)
  · exact hword (n := 12) 0b0011#4 rfl (by simp; omega)
  · exact hword (n := 14) 0b01#2 rfl (by simp; omega)
  · exact hword (n := 15) 0b1#1 rfl (by simp; omega)

/-! The "addresses" column of R75: each pattern spells the addresses from its first one on. -/

theorem toNat_viewProg (x : BitVec 13) : (patternAddr 0b000#3 x).toNat = 0 + x.toNat :=
  toNat_patternAddr 0b000#3 x rfl

theorem toNat_viewWram (x : BitVec 10) : (patternAddr 0b001000#6 x).toNat = 0x2000 + x.toNat :=
  toNat_patternAddr 0b001000#6 x rfl

theorem toNat_viewVram0 (x : BitVec 10) : (patternAddr 0b001001#6 x).toNat = 0x2400 + x.toNat :=
  toNat_patternAddr 0b001001#6 x rfl

theorem toNat_viewVram1 (x : BitVec 11) : (patternAddr 0b00101#5 x).toNat = 0x2800 + x.toNat :=
  toNat_patternAddr 0b00101#5 x rfl

theorem toNat_viewVram2 (x : BitVec 12) : (patternAddr 0b0011#4 x).toNat = 0x3000 + x.toNat :=
  toNat_patternAddr 0b0011#4 x rfl

theorem toNat_viewMirror0 (x : BitVec 14) : (patternAddr 0b01#2 x).toNat = 0x4000 + x.toNat :=
  toNat_patternAddr 0b01#2 x rfl

theorem toNat_viewMirror1 (x : BitVec 15) : (patternAddr 0b1#1 x).toNat = 0x8000 + x.toNat :=
  toNat_patternAddr 0b1#1 x rfl

/-- The row that the address of a pattern selects is the pattern's own. -/
theorem decodeA16_of_encodeOne {c : Params} {i : Instr} {a : Addr} (h : encodeOne c i = some (.a16 a)) : decodeA16 a = i := by
  cases i with
  | viewProg x =>
    cases h
    rw [decodeA16_eq, toNat_viewProg, if_pos (by omega), extractLsb'_patternAddr _ _ rfl]
  | viewWram x =>
    cases h
    rw [decodeA16_eq, toNat_viewWram, if_neg (by omega), if_pos (by omega), extractLsb'_patternAddr _ _ rfl]
  | viewVram0 x =>
    cases h
    rw [decodeA16_eq, toNat_viewVram0, if_neg (by omega), if_neg (by omega), if_pos (by omega), extractLsb'_patternAddr _ _ rfl]
  | viewVram1 x =>
    cases h
    rw [decodeA16_eq, toNat_viewVram1, if_neg (by omega), if_neg (by omega), if_neg (by omega), if_pos (by omega),
      extractLsb'_patternAddr _ _ rfl]
  | viewVram2 x =>
    cases h
    rw [decodeA16_eq, toNat_viewVram2, if_neg (by omega), if_neg (by omega), if_neg (by omega), if_neg (by omega),
      if_pos (by omega), extractLsb'_patternAddr _ _ rfl]
  | viewMirror0 x =>
    cases h
    rw [decodeA16_eq, toNat_viewMirror0, if_neg (by omega), if_neg (by omega), if_neg (by omega), if_neg (by omega),
      if_neg (by omega), if_pos (by omega), extractLsb'_patternAddr _ _ rfl]
  | viewMirror1 x =>
    cases h
    rw [decodeA16_eq, toNat_viewMirror1, if_neg (by omega), if_neg (by omega), if_neg (by omega), if_neg (by omega),
      if_neg (by omega), if_neg (by omega), extractLsb'_patternAddr _ _ rfl]
  | _ => cases h

/-! ## Round trips -/

/-- A transaction has its own word and no other. -/
theorem encode_of_encodeOne {c : Params} {i : Instr} {w : TWord} (h : encodeOne c i = some w) : encode c i = [w] := by
  have hself : expand c i = [i] := by
    cases i with
    | loadImage | loadRom | frameScan | press | release => cases h
    | _ => rfl
  simp [encode, hself, h]

theorem encodes_portInRow {c : Params} {p : Port} (hp : fits c p = true) :
    encodeOne c (portInRow c p) = some (.t40 (t40 0x08 p 0)) ∧ wellFormed c (portInRow c p) = true := by
  rw [portInRow_eq]
  split_ifs with hA hB hS hW
  · rw [hA]; exact ⟨rfl, rfl⟩
  · rw [hB]; exact ⟨rfl, rfl⟩
  · rw [hS]; exact ⟨rfl, rfl⟩
  · rw [hW]; exact ⟨rfl, rfl⟩
  · exact ⟨rfl, by simp [wellFormed, hp, readDevice_eq_unrecognised.mpr ⟨hA, hB, hS, hW⟩]⟩

theorem encodes_portOutRow {c : Params} {p : Port} (hp : fits c p = true) (d : Byte) :
    encodeOne c (portOutRow c p d) = some (.t40 (t40 0x09 p (inField d))) ∧ wellFormed c (portOutRow c p d) = true := by
  rw [portOutRow_eq]
  split_ifs with hO hD hW
  · rw [hO]; exact ⟨rfl, rfl⟩
  · rw [hD]; exact ⟨rfl, rfl⟩
  · rw [hW]; exact ⟨rfl, rfl⟩
  · exact ⟨rfl, by simp [wellFormed, hp, writeDevice_eq_unrecognised.mpr ⟨hO, hD, hW⟩]⟩

/-- Each row of R73 builds a transaction of that row, whose word is the one it was built from. -/
theorem encodes_row {c : Params} {sel data : BitVec 16} : ∀ r ∈ t40Rows c, sel &&& r.selMbz = 0 → data &&& r.dataMbz = 0 →
    encodeOne c (r.build sel data) = some (.t40 (t40 r.op sel data)) ∧ wellFormed c (r.build sel data) = true := by
  have hzero {x : BitVec 16} (h : x &&& 0xFFFF = 0) : x = 0 := (all_and x).symm.trans h
  have hbyte {x : BitVec 16} (h : x &&& 0xFF00 = 0) : inField (lowField x) = x := inField_lowField h
  simp only [t40Rows, List.forall_mem_cons]
  refine ⟨?readByte, ?writeByte, ?loadByte, ?readWord, ?writeWord, ?portIn, ?portOut, ?push, ?pop, ?hasPending, ?latchSet,
    ?latchClear, nofun⟩ <;> intro hsel hdata
  case readByte | readWord => rw [hzero hdata]; exact ⟨rfl, rfl⟩
  case writeByte | loadByte => exact ⟨by rw [encodeOne, hbyte hdata], rfl⟩
  case writeWord => exact ⟨rfl, rfl⟩
  case portIn => rw [hzero hdata]; exact encodes_portInRow ((and_portMbz_eq_zero c sel).mp hsel)
  case portOut =>
    have h := encodes_portOutRow ((and_portMbz_eq_zero c sel).mp hsel) (lowField data)
    rwa [hbyte hdata] at h
  case push => rw [hzero hsel]; exact ⟨by rw [encodeOne, hbyte hdata], rfl⟩
  case pop | hasPending => rw [hzero hsel, hzero hdata]; exact ⟨rfl, rfl⟩
  case latchSet | latchClear => rw [hzero hdata]; exact ⟨by rw [encodeOne, latchSel_of_and hsel], rfl⟩

/-- A word that decodes is the word of the transaction it decodes to. -/
theorem encodes_of_decode {c : Params} {w : TWord} {i : Instr} (h : decode c w = .ok i) :
    encodeOne c i = some w ∧ wellFormed c i = true := by
  cases w with
  | t40 w =>
    obtain ⟨r, hr, hop, hsel, hdata, rfl⟩ := decodeFields_ok_cases h
    rw [← t40_fields w, ← hop]
    simpa using encodes_row r hr hsel hdata
  | k64 w =>
    cases h
    exact ⟨rfl, rfl⟩
  | a16 a =>
    cases h
    refine ⟨encodeOne_decodeA16 c a, ?_⟩
    rw [decodeA16_eq]
    split_ifs <;> rfl

/-- The word of a well-formed transaction decodes to it. -/
theorem decode_of_encodeOne {c : Params} (hc : c.Valid) {i : Instr} {w : TWord} (hi : wellFormed c i = true)
    (h : encodeOne c i = some w) : decode c w = .ok i := by
  obtain ⟨hA, hB, hS, hWdgR, -⟩ := portReadReachesItsDevice c hc
  cases i with
  | readByte a => cases h; simp [decode_t40, decodeFields_readByte]
  | writeByte a v => cases h; simp [decode_t40, decodeFields_writeByte]
  | loadByte a v => cases h; simp [decode_t40, decodeFields_loadByte]
  | readWord a => cases h; simp [decode_t40, decodeFields_readWord]
  | writeWord a v => cases h; simp [decode_t40, decodeFields_writeWord]
  | inA => cases h; exact hA
  | inB => cases h; exact hB
  | inShift => cases h; exact hS
  | inWdg => cases h; exact hWdgR
  | inUnk p =>
    cases h
    simp only [wellFormed, Bool.and_eq_true, beq_iff_eq] at hi
    obtain ⟨hfits, hdev⟩ := hi
    exact portInRow_unrecognised hdev ▸ decode_portIn hfits
  | outOffset d =>
    cases h
    obtain ⟨hO, -⟩ := portWriteReachesItsDevice c hc d
    exact hO
  | outData d =>
    cases h
    obtain ⟨-, hD, -⟩ := portWriteReachesItsDevice c hc d
    exact hD
  | outWdg d =>
    cases h
    obtain ⟨-, -, hWdgW, -⟩ := portWriteReachesItsDevice c hc d
    exact hWdgW
  | outUnk p d =>
    cases h
    simp only [wellFormed, Bool.and_eq_true, beq_iff_eq] at hi
    obtain ⟨hfits, hdev⟩ := hi
    exact portOutRow_unrecognised hdev d ▸ decode_portOut hfits d
  | push v => cases h; simp [decode_t40, decodeFields_push]
  | pop => cases h; simp [decode_t40, decodeFields_pop]
  | hasPending => cases h; simp [decode_t40, decodeFields_hasPending]
  | latchSet f b => cases h; simp [decode_t40, decodeFields_latchSet]
  | latchClear f b => cases h; simp [decode_t40, decodeFields_latchClear]
  | tick n => cases h; rfl
  | viewProg x | viewWram x | viewVram0 x | viewVram1 x | viewVram2 x | viewMirror0 x | viewMirror1 x =>
    cases h
    exact congrArg Except.ok (decodeA16_of_encodeOne (c := c) rfl)
  | loadImage | loadRom | frameScan | press | release => cases h

/-- The parts of an expansion are transactions with a word of their own (R83). -/
theorem expansion_statement (i : Instr) : Laws.Expansion.Statement i := by
  cases i with
  | loadImage base bytes => exact Laws.Expansion.loadImage base bytes
  | loadRom b0 b1 b2 b3 => exact Laws.Expansion.loadRom b0 b1 b2 b3
  | frameScan => exact Laws.Expansion.frameScan
  | press n => exact Laws.Expansion.press n
  | release n => exact Laws.Expansion.release n
  | _ => exact Laws.Expansion.of_self (fun _ => rfl) fun _ => ⟨_, rfl⟩

/-- What a well-formed instruction expands to is well-formed. -/
theorem wellFormed_of_mem_expand {c : Params} {i j : Instr} (hi : wellFormed c i = true) (hj : j ∈ expand c i) :
    wellFormed c j = true := by
  cases i with
  | loadImage base bytes =>
    obtain ⟨a, v, rfl⟩ := Laws.Expansion.mem_expandImage hj
    rfl
  | loadRom b0 b1 b2 b3 =>
    simp only [expand, List.mem_append] at hj
    rcases hj with ((hj | hj) | hj) | hj <;>
      · obtain ⟨a, v, rfl⟩ := Laws.Expansion.mem_expandImage hj
        rfl
  | frameScan =>
    obtain ⟨a, -, rfl⟩ := List.mem_map.mp hj
    rfl
  | press n | release n =>
    obtain rfl := List.mem_singleton.mp hj
    rfl
  | _ =>
    obtain rfl := List.mem_singleton.mp hj
    exact hi

/-- Settles O2: each part of the expansion has one word, which decodes to it. -/
theorem decodeOfEncodeIsTheExpansion : Obligations.DecodeOfEncodeIsTheExpansion := by
  intro c hc i hi
  rw [encode, List.map_filterMap, List.filterMap_eq_map_iff_forall_eq_some]
  intro j hj
  obtain ⟨-, w, hword, -⟩ := expansion_statement i c j hj
  rw [hword, Option.map_some, decode_of_encodeOne hc (wellFormed_of_mem_expand hi hj) hword]

/-- Settles O3, by the rows of R73 and the patterns of R75. -/
theorem encodeOfDecodeIsTheWord : Obligations.EncodeOfDecodeIsTheWord := by
  intro c _ w i h
  obtain ⟨hword, hwf⟩ := encodes_of_decode h
  exact ⟨encode_of_encodeOne hword, hwf⟩

/-- Settles O1. -/
theorem wordsFromTheEncodingTablesDecode : Obligations.WordsFromTheEncodingTablesDecode := by
  unfold Obligations.WordsFromTheEncodingTablesDecode
  decide

end Sys2Proof

namespace Sys2Proof.Machine

/-! ## Invalid words -/

theorem step_of_decode_error {s : State} {t : Taken} {w : TWord} {e : DecodeError} (hn : nextRequest s.holds = some t)
    (hw : t.request = .word w) (he : decode params w = .error e) : step s = .refused (.invalidWord e) :=
  step_of_instrOf_error hn (by rw [hw, instrOf_word_error he])

/-- Settles O9: the table of the statement is that of R73, row by row. -/
theorem invalidWordIsRefused : Obligations.InvalidWordIsRefused := by
  intro s t w hn hw op table
  have htable : table = (t40Rows params).map fun r => (r.op, t40 0 r.selMbz r.dataMbz) := by decide
  refine ⟨fun hop => ?_, fun mbz hmem hmbz => ?_⟩
  · rw [htable, List.map_map] at hop
    exact step_of_decode_error hn hw (decode_of_reserved params hop)
  · rw [htable] at hmem
    obtain ⟨r, hr, hrow⟩ := List.mem_map.mp hmem
    obtain ⟨hop, rfl⟩ := Prod.mk.inj hrow
    exact step_of_decode_error hn hw (decode_of_mbz hr hop hmbz)

/-! ## The address-decode rows -/

/-- What an address-decode row answers, from the store and index of its address. -/
theorem next_resolve_of_region {s : State} {a : Addr} {st : Store} {k : Nat} (h : region a = (st, k)) :
    (.next (resolve s a) : Host.Outcome State Fault Refusal) = .next (s.answer (.place st k)) := by
  rw [resolve, h]

/-- Settles O15: the address each row spells, and the view it is in. -/
theorem viewRowsAnswerStoreAndIndex : Obligations.ViewRowsAnswerStoreAndIndex := by
  intro s
  refine ⟨fun x => next_resolve_of_region ?_, fun x => next_resolve_of_region ?_, fun x => next_resolve_of_region ?_,
    fun x => next_resolve_of_region ?_, fun x => next_resolve_of_region ?_, fun x => next_resolve_of_region ?_,
    fun x => next_resolve_of_region ?_⟩
  · have hval := toNat_viewProg x
    exact (region_eq_program_iff (by omega)).mpr (by omega)
  · have hval := toNat_viewWram x
    exact (region_eq_working_iff (by omega)).mpr (by omega)
  · have hval := toNat_viewVram0 x
    exact (region_eq_video_iff (by omega)).mpr (by omega)
  · have hval := toNat_viewVram1 x
    exact (region_eq_video_iff (by omega)).mpr (by omega)
  · have hval := toNat_viewVram2 x
    exact (region_eq_video_iff (by omega)).mpr (by omega)
  · have hval := toNat_viewMirror0 x
    rw [region_mirror (by omega), hval, Nat.add_sub_cancel_left]
  · have hval := toNat_viewMirror1 x
    rw [region_mirror (by omega)]
    exact congrArg _ (by omega)

/-! ## Pseudo-transactions -/

theorem execAll_cons_of_next {i : Instr} {s t : State} (h : exec i s = .next t) (is : List Instr) :
    execAll (i :: is) s = execAll is t := by
  rw [execAll, h]

/-- A list of transactions, cut anywhere. -/
theorem execAll_append_of_next {is : List Instr} {s t : State} (h : execAll is s = .next t) (js : List Instr) :
    execAll (is ++ js) s = execAll js t := by
  induction is generalizing s with
  | nil => cases h; rfl
  | cons i is ih =>
    cases hi : exec i s with
    | next u =>
      rw [execAll_cons_of_next hi] at h
      rw [List.cons_append, execAll_cons_of_next hi, ih h]
    | fault f => simp [execAll, hi] at h
    | refused r => simp [execAll, hi] at h

/-- The block after a load depends on the block alone. -/
theorem memLoad_toBlock_congr {s t : State} (h : s.toBlock = t.toBlock) (a : Addr) (v : Byte) :
    (memLoad s a v).toBlock = (memLoad t a v).toBlock := by
  obtain ⟨b, _, _, _, _, _, _, _⟩ := s
  obtain ⟨b', _, _, _, _, _, _, _⟩ := t
  cases h
  unfold memLoad
  cases (region a).1 <;> rfl

/-- The `load_byte`s of an image leave the block as the image load does (R95). -/
theorem execAll_expandImage {s t : State} (h : s.toBlock = t.toBlock) (base : Addr) (vs : List Byte) :
    ∃ u, execAll (expandImage base vs) s = .next u ∧ u.toBlock = (loadBytes t base vs).toBlock := by
  induction vs generalizing s t base with
  | nil => exact ⟨s, rfl, h⟩
  | cons v vs ih => exact ih (s := (memLoad s base v).answer .silent) (memLoad_toBlock_congr h base v) (inc16 base)

theorem execAll_expand_loadRom (s : State) (b0 b1 b2 b3 : List Byte) :
    ∃ u, execAll (expand params (.loadRom b0 b1 b2 b3)) s = .next u ∧ u.toBlock = (loadBlocks s b0 b1 b2 b3).toBlock := by
  obtain ⟨u0, he0, hb0⟩ := execAll_expandImage (s := s) rfl 0x0000 b0
  obtain ⟨u1, he1, hb1⟩ := execAll_expandImage hb0 0x0800 b1
  obtain ⟨u2, he2, hb2⟩ := execAll_expandImage hb1 0x1000 b2
  obtain ⟨u3, he3, hb3⟩ := execAll_expandImage hb2 0x1800 b3
  refine ⟨u3, ?_, hb3⟩
  have h01 := (execAll_append_of_next he0 _).trans he1
  have h012 := (execAll_append_of_next h01 _).trans he2
  exact (execAll_append_of_next h012 _).trans he3

/-- Reads leave the block as it is. -/
theorem execAll_readBytes (as : List Addr) (s : State) : ∃ u, execAll (as.map .readByte) s = .next u ∧ u.toBlock = s.toBlock := by
  induction as generalizing s with
  | nil => exact ⟨s, rfl, rfl⟩
  | cons a as ih => exact ih (s.answer (.byte (memRead s a)))

/-- Settles O23, one pseudo-transaction after the other. -/
theorem pseudoTransactionIsItsExpansion : Obligations.PseudoTransactionIsItsExpansion := by
  rintro s i (⟨base, bytes, rfl⟩ | ⟨b0, b1, b2, b3, rfl⟩ | rfl | ⟨n, rfl⟩ | ⟨n, rfl⟩)
  · obtain ⟨u, hu, hblock⟩ := execAll_expandImage (s := s) rfl base bytes
    exact ⟨_, u, rfl, hu, hblock.symm⟩
  · obtain ⟨u, hu, hblock⟩ := execAll_expand_loadRom s b0 b1 b2 b3
    exact ⟨_, u, rfl, hu, hblock.symm⟩
  · obtain ⟨u, hu, hblock⟩ := execAll_readBytes videoAddrs s
    exact ⟨_, u, rfl, hu, hblock.symm⟩
  · exact ⟨_, _, rfl, rfl, rfl⟩
  · exact ⟨_, _, rfl, rfl, rfl⟩

end Sys2Proof.Machine
end

section
/-! PROOFS. The memory transactions (spec/40_memory_ops.md): what each answers, the laws of a write followed by a read, the word and
byte views of memory, the image load byte by byte, the frame scan, and the memory frame of every instruction. -/

namespace Sys2Proof.Machine

/-! ## What each transaction answers -/

theorem exec_readByte (a : Addr) (s : State) : exec (.readByte a) s = .next (s.answer (.byte (memRead s a))) := rfl

theorem exec_writeByte (a : Addr) (v : Byte) (s : State) : exec (.writeByte a v) s = .next ((memWrite s a v).answer .silent) := rfl

theorem exec_loadByte (a : Addr) (v : Byte) (s : State) : exec (.loadByte a v) s = .next ((memLoad s a v).answer .silent) := rfl

theorem exec_readWord (a : Addr) (s : State) : exec (.readWord a) s = .next (s.answer (.word (memReadWord s a))) := rfl

theorem exec_writeWord (a : Addr) (w : Word16) (s : State) :
    exec (.writeWord a w) s = .next ((memWriteWord s a w).answer .silent) := rfl

theorem exec_loadImage (base : Addr) (vs : List Byte) (s : State) :
    exec (.loadImage base vs) s = .next ((loadBytes s base vs).answer .silent) := rfl

theorem exec_frameScan (s : State) : exec .frameScan s = .next (s.answer (.bytes (frameBytes s))) := rfl

/-! ## Addresses and words -/

/-- The address after another, as the statements write it (R44). -/
theorem ofNat_succ_eq_inc16 (a : Addr) : BitVec.ofNat 16 ((a.toNat + 1) % 0x10000) = inc16 a :=
  BitVec.eq_of_toNat_eq (by rw [toNat_inc16, BitVec.toNat_ofNat, Nat.mod_mod])

/-- Every view begins at an even address, so an index has the parity of its address. -/
theorem region_snd_mod_two (a : Addr) : (region a).2 % 2 = a.toNat % 2 := by
  obtain ⟨-, hr⟩ | ⟨hge, -, hr⟩ | ⟨hge, -, hr⟩ | ⟨hge, hr⟩ := region_cases a
  · rw [hr]
  all_goals
    rw [hr]
    omega

/-- The two bytes of a word are never one byte of a store: their indexes differ in parity. -/
theorem region_inc16_ne (a : Addr) : region (inc16 a) ≠ region a := by
  intro h
  have hparity := congrArg (fun p => p.2 % 2) h
  simp only [region_snd_mod_two, toNat_inc16] at hparity
  omega

theorem toNat_wordOf (hi lo : Byte) : (wordOf hi lo).toNat = hi.toNat * 0x100 + lo.toNat := by
  rw [wordOf, BitVec.setWidth_eq, BitVec.toNat_append, ← Nat.shiftLeft_add_eq_or_of_lt lo.isLt, Nat.shiftLeft_eq]

/-- A word is its two halves (R45). -/
theorem wordOf_highByte_lowByte (w : Word16) : wordOf (highByte w) (lowByte w) = w := by
  have hw := w.isLt
  apply BitVec.eq_of_toNat_eq
  rw [toNat_wordOf, highByte, lowByte, toNat_addrField, toNat_addrField]
  omega

/-! ## A read after a write -/

/-- A run-time write is stored outside the program view (R43). -/
theorem stores_eq_true_iff (a : Addr) : stores a = true ↔ 0x2000 ≤ a.toNat := by
  rw [stores, bne_iff_ne, ne_eq, region_fst_eq_PROG]
  omega

/-- What a read gives after the run-time write: the byte written at every address of its byte, unless the write is dropped; the
old byte otherwise. -/
theorem memRead_memWrite {s : State} (hs : StoresOk s) (a b : Addr) (v : Byte) :
    memRead (memWrite s a v) b = if region b = region a ∧ 0x2000 ≤ a.toNat then v else memRead s b := by
  obtain ⟨hle, h⟩ | ⟨hge, h⟩ := memWrite_cases s a v
  · rw [h, if_neg (by omega)]
  · rw [h, memRead_memLoad hs]
    simp only [hge, and_true]

theorem memRead_memWrite_same {s : State} (hs : StoresOk s) {a b : Addr} (h : region b = region a) (ha : 0x2000 ≤ a.toNat)
    (v : Byte) : memRead (memWrite s a v) b = v := by
  rw [memRead_memWrite hs, if_pos ⟨h, ha⟩]

/-- Another byte, and every byte where the write is dropped, reads as before. -/
theorem memRead_memWrite_other {s : State} (hs : StoresOk s) {a b : Addr} (h : stores a = true → region a ≠ region b) (v : Byte) :
    memRead (memWrite s a v) b = memRead s b := by
  rw [memRead_memWrite hs]
  exact if_neg fun ⟨hr, ha⟩ => h ((stores_eq_true_iff a).mpr ha) hr.symm

/-- Settles O21, by the read after a run-time write and after a load. -/
theorem writeThenRead : Obligations.WriteThenRead := by
  intro s a v hs
  refine ⟨⟨_, exec_writeByte a v s, fun b => ⟨fun hb ha => ?_, fun hb => ?_⟩⟩,
    ⟨_, exec_loadByte a v s, fun b => ⟨fun hb => ?_, fun hb => ?_⟩⟩⟩
  · rw [exec_readByte, memRead_answer, memRead_memWrite_same hs hb ha]
  · have hother : stores a = true → region a ≠ region b := fun hst hr => by
      have hge := (stores_eq_true_iff a).mp hst
      exact hb.elim (fun hne => hne hr.symm) (by omega)
    rw [exec_readByte, memRead_answer, memRead_memWrite_other hs hother]
  · rw [exec_readByte, memRead_answer, memRead_memLoad hs, if_pos hb]
  · rw [exec_readByte, memRead_answer, memRead_memLoad hs, if_neg hb]

/-! ## The word and byte views -/

@[simp] theorem memReadWord_answer (s : State) (r : Response) (a : Addr) : memReadWord (s.answer r) a = memReadWord s a := by
  rw [memReadWord, memReadWord, memRead_answer, memRead_answer]

/-- The high byte of a word is stored at the second address, which is another byte than the first. -/
theorem memRead_memWriteWord {s : State} (hs : StoresOk s) {a : Addr} (ha : 0x2000 ≤ a.toNat) (ha' : 0x2000 ≤ (inc16 a).toNat)
    (w : Word16) : memRead (memWriteWord s a w) a = lowByte w ∧ memRead (memWriteWord s a w) (inc16 a) = highByte w := by
  have hlow : StoresOk (memWrite s a (lowByte w)) := hs.memWrite a _
  refine ⟨?_, memRead_memWrite_same hlow rfl ha' _⟩
  rw [memWriteWord, memRead_memWrite_other hlow fun _ => region_inc16_ne a, memRead_memWrite_same hs rfl ha]

/-- Settles O22: the two halves are read back, and a word is its two halves. -/
theorem wordAndByteViewsAgree : Obligations.WordAndByteViewsAgree := by
  intro s a w hs ha ha'
  obtain ⟨hlow, hhigh⟩ := memRead_memWriteWord hs ha ha' w
  refine ⟨_, exec_writeWord a w s, ?_, ?_, ?_⟩
  · rw [exec_readWord, memReadWord_answer, memReadWord, hlow, hhigh, wordOf_highByte_lowByte]
  · rw [exec_readByte, memRead_answer, hlow, lowByte]
  · rw [exec_readByte, memRead_answer, ← inc16, hhigh, highByte]

/-- Settles O19: the word of two bytes, as arithmetic. -/
theorem readWordIsTwoReadBytes : Obligations.ReadWordIsTwoReadBytes := by
  intro s a
  refine ⟨memRead s a, memRead s (inc16 a), memReadWord s a, toNat_wordOf _ _, exec_readByte a s, ?_, exec_readWord a s⟩
  rw [ofNat_succ_eq_inc16, exec_readByte]

/-! ## Outputs and writes -/

theorem answer_answer (s : State) (r r' : Response) : (s.answer r).answer r' = s.answer r' := rfl

theorem setStore_answer (s : State) (r : Response) (st : Store) (m : Memory) :
    (s.answer r).setStore st m = (s.setStore st m).answer r := by
  cases st <;> rfl

/-- A write does not see the outputs and leaves them. -/
theorem memLoad_answer (s : State) (r : Response) (a : Addr) (v : Byte) :
    memLoad (s.answer r) a v = (memLoad s a v).answer r := by
  rw [memLoad, State.answer_store, setStore_answer, memLoad]

theorem memWrite_answer (s : State) (r : Response) (a : Addr) (v : Byte) :
    memWrite (s.answer r) a v = (memWrite s a v).answer r := by
  rw [memWrite, memWrite, memLoad_answer]
  split_ifs <;> rfl

theorem loadBytes_answer (s : State) (r : Response) (base : Addr) (vs : List Byte) :
    loadBytes (s.answer r) base vs = (loadBytes s base vs).answer r := by
  induction vs generalizing s base with
  | nil => rfl
  | cons v vs ih => rw [loadBytes, memLoad_answer, ih, loadBytes]

/-- Settles O20: the answer of the first `write_byte` is lost in that of the second. -/
theorem writeWordIsTwoWriteBytes : Obligations.WriteWordIsTwoWriteBytes := by
  intro s a w
  refine ⟨_, _, exec_writeByte a (lowByte w) s, ?_, exec_writeWord a w s⟩
  rw [ofNat_succ_eq_inc16, exec_writeByte, memWrite_answer, answer_answer, memWriteWord, highByte]

/-- Settles O24, by the recursion of the image load. -/
theorem loadImageLoadsByteByByte : Obligations.LoadImageLoadsByteByByte := by
  intro s base
  refine ⟨exec_loadImage base [] s, fun v vs => ⟨_, _, exec_loadByte base v s, ?_, exec_loadImage base (v :: vs) s⟩⟩
  rw [ofNat_succ_eq_inc16, exec_loadImage, loadBytes_answer, answer_answer, loadBytes]

/-! ## Reads -/

/-- The byte an address reads, by the four ranges of R40. -/
theorem memRead_eq (s : State) (a : Addr) : memRead s a =
    if a.toNat ≤ 0x1FFF then s.prog.read a.toNat
    else if a.toNat ≤ 0x23FF then s.wram.read (a.toNat - 0x2000)
    else if a.toNat ≤ 0x3FFF then s.vram.read (a.toNat - 0x2400)
    else s.wram.read ((a.toNat - 0x4000) % 0x400) := by
  rw [memRead, region]
  split_ifs <;> rfl

/-- The engine issues every `read_byte` (R50 (a)). -/
theorem mayIssue_engine_readByte (a : Addr) : mayIssue .engine (.readByte a) = true := by
  rw [mayIssue, issuers]
  split <;> rfl

/-- Settles O17, by the word's row of R73 and the ranges of R40. -/
theorem readByteAnswersTheByte : Obligations.ReadByteAnswersTheByte := by
  intro s a
  refine ⟨?_, mayIssue_engine_readByte a, by rw [exec_readByte, memRead_eq]⟩
  rw [decode_t40]
  exact (decodeFields_readByte params a 0).trans (if_pos rfl)

/-- The byte at place `k` of the video view is `VRAM[k]` (R96). -/
theorem memRead_video (s : State) {k : Nat} (hk : k < 0x1C00) : memRead s (BitVec.ofNat 16 (0x2400 + k)) = s.vram.read k := by
  have hval : (BitVec.ofNat 16 (0x2400 + k)).toNat = 0x2400 + k := by rw [BitVec.toNat_ofNat]; omega
  rw [memRead, (region_eq_video_iff hk).mpr hval]
  rfl

theorem frameBytes_eq (s : State) : frameBytes s = (List.range 7168).map s.vram.read := by
  rw [frameBytes, videoAddrs, List.range'_eq_map_range, List.map_map, List.map_map]
  exact List.map_congr_left fun k hk => memRead_video s (List.mem_range.mp hk)

/-- Settles O26, byte by byte of the video view. -/
theorem frameScanAnswersVideoMemory : Obligations.FrameScanAnswersVideoMemory := fun s => by
  rw [exec_frameScan, frameBytes_eq]

/-! ## The memory frame of every instruction -/

theorem memRead_memWriteWord_other {s : State} (hs : StoresOk s) {a b : Addr} (w : Word16)
    (h : ∀ a' ∈ storedAddrs (.writeWord a w), region a' ≠ region b) : memRead (memWriteWord s a w) b = memRead s b := by
  have hlow : stores a = true → region a ≠ region b := fun hst => h a (List.mem_filter.mpr ⟨by simp, hst⟩)
  have hhigh : stores (inc16 a) = true → region (inc16 a) ≠ region b := fun hst => h _ (List.mem_filter.mpr ⟨by simp, hst⟩)
  rw [memWriteWord, memRead_memWrite_other (hs.memWrite a _) hhigh, memRead_memWrite_other hs hlow]

/-- Bytes outside the four blocks of a ROM load read as before. -/
theorem memRead_loadBlocks_other {s : State} (hs : StoresOk s) {b : Addr} (b0 b1 b2 b3 : List Byte)
    (h : ∀ a ∈ storedAddrs (.loadRom b0 b1 b2 b3), region a ≠ region b) : memRead (loadBlocks s b0 b1 b2 b3) b = memRead s b := by
  simp only [storedAddrs, List.forall_mem_append] at h
  obtain ⟨⟨⟨h0, h1⟩, h2⟩, h3⟩ := h
  have hs0 := StoresOk.loadBytes 0x0000 b0 hs
  have hs1 := StoresOk.loadBytes 0x0800 b1 hs0
  have hs2 := StoresOk.loadBytes 0x1000 b2 hs1
  rw [loadBlocks, memRead_loadBytes_other _ _ hs2 h3, memRead_loadBytes_other _ _ hs1 h2, memRead_loadBytes_other _ _ hs0 h1,
    memRead_loadBytes_other _ _ hs h0]

/-- Settles O58: the five instructions that write memory by the read after each, every other one because no store is in its row of
the access matrix. -/
theorem everyOtherByteIsUnchanged : Obligations.EveryOtherByteIsUnchanged := by
  intro i s t b hs h hb
  cases i with
  | writeByte a v =>
    cases h
    rw [memRead_answer, memRead_memWrite_other hs fun hst => hb a (List.mem_filter.mpr ⟨by simp, hst⟩)]
  | writeWord a w =>
    cases h
    rw [memRead_answer, memRead_memWriteWord_other hs w hb]
  | loadByte a v =>
    cases h
    rw [memRead_answer, memRead_memLoad hs, if_neg (hb a (List.mem_singleton_self a)).symm]
  | loadImage base vs =>
    cases h
    rw [memRead_answer, memRead_loadBytes_other base vs hs hb]
  | loadRom b0 b1 b2 b3 =>
    cases h
    rw [memRead_answer, memRead_loadBlocks_other hs b0 b1 b2 b3 hb]
  | _ => exact memRead_congr (fun st => (exec_changesOnly h).store_eq (by cases st <;> simp [mayWrite, storeItem])) b

end Sys2Proof.Machine
end

section
/-! PROOFS. The ports and the shift register (spec/41_port_io.md): the shift window and the load as bit fields and as arithmetic, what
each port transaction does, and the two registers after any sequence of transactions. -/

namespace Sys2Proof.Machine

/-! ## The shift register -/

/-- The shift read is a bit field of `SR`, for every anchor (R113). -/
theorem shiftWindow_eq_extractLsb' (c : Params) (sr : BitVec 16) (so : BitVec 3) :
    shiftWindow c sr so = sr.extractLsb' (c.shiftAnchor - so.toNat) 8 := by
  rw [shiftWindow, ← BitVec.setWidth_ushiftRight (by decide), BitVec.extractLsb'_setWidth_of_le (by decide),
    ← BitVec.setWidth_eq_extractLsb' (by decide), BitVec.setWidth_ushiftRight_eq_extractLsb]

/-- The same bit field as arithmetic, the form R122 uses. -/
theorem shiftWindow_eq_ofNat (c : Params) (sr : BitVec 16) (so : BitVec 3) :
    shiftWindow c sr so = BitVec.ofNat 8 (sr.toNat / 2 ^ (c.shiftAnchor - so.toNat)) := by
  rw [shiftWindow_eq_extractLsb', BitVec.extractLsb', Nat.shiftRight_eq_div_pow]

/-- Shifting up by the offset and taking the upper byte is the field that starts `n` bits lower. -/
theorem setWidth_shiftLeft_ushiftRight (sr : BitVec 16) {n : Nat} (hn : n ≤ 8) :
    ((sr.setWidth 32 <<< n) >>> 8).setWidth 8 = sr.extractLsb' (8 - n) 8 := by
  rw [BitVec.setWidth_ushiftRight_eq_extractLsb]
  apply BitVec.eq_of_getLsbD_eq
  intro j hj
  have hbit : 8 + j - n = 8 - n + j := by omega
  have hlow : ¬ 8 + j < n := by omega
  have hhigh : 8 + j < 32 := by omega
  simp [hj, hbit, hlow, hhigh]

theorem toNat_highByte (w : Word16) : (highByte w).toNat = w.toNat / 256 := by
  have hw := w.isLt
  rw [highByte, toNat_addrField]
  omega

theorem toNat_shiftLoad (sr : BitVec 16) (d : Byte) : (shiftLoad sr d).toNat = d.toNat * 256 + sr.toNat / 256 := by
  rw [shiftLoad, toNat_wordOf, toNat_highByte]

theorem toNat_offsetOf (d : Byte) : (offsetOf d).toNat = d.toNat % 8 := by
  rw [offsetOf, BitVec.extractLsb'_toNat, Nat.shiftRight_zero]

/-- The second load loses what `SR` held before the first (R122). -/
theorem toNat_shiftLoad_shiftLoad (sr : BitVec 16) (b1 b2 : Byte) :
    (shiftLoad (shiftLoad sr b1) b2).toNat = b2.toNat * 256 + b1.toNat := by
  have hsr := sr.isLt
  rw [toNat_shiftLoad, toNat_shiftLoad]
  omega

/-- Settles O30, each form being the bit field of `SR`. -/
theorem shiftReadFormsAgree : Obligations.ShiftReadFormsAgree := by
  intro c sr so hanchor
  have hso := so.isLt
  have hfield : shiftWindow c sr so = sr.extractLsb' (8 - so.toNat) 8 := by rw [shiftWindow_eq_extractLsb', hanchor]
  refine ⟨?_, ?_, hfield, by omega, by omega, toNat_shiftLoad sr⟩
  · rw [hfield, BitVec.setWidth_ushiftRight_eq_extractLsb]
  · rw [hfield, setWidth_shiftLeft_ushiftRight sr (by omega)]

/-! ## What each port transaction does -/

theorem exec_inA (s : State) : exec .inA s =
    .next ((s.setLatch .A (s.la &&& ~~~params.coinMask)).answer (.byte (params.statusA ||| s.la))) := rfl

theorem exec_inB (s : State) : exec .inB s = .next (s.answer (.byte (params.statusB ||| s.lb))) := rfl

theorem exec_inShift (s : State) : exec .inShift s = .next (s.answer (.byte (shiftWindow params s.sr s.so))) := rfl

theorem exec_inWdg (s : State) : exec .inWdg s = .next (s.countDraw.answer (.byte (Config.freeByte s.draws))) := rfl

theorem exec_inUnk (p : Port) (s : State) : exec (.inUnk p) s = .next (s.report (.byte 0xFF) (.unknownIn p)) := rfl

theorem exec_outOffset (d : Byte) (s : State) : exec (.outOffset d) s = .next ((s.setSo (offsetOf d)).answer .silent) := rfl

theorem exec_outData (d : Byte) (s : State) : exec (.outData d) s = .next ((s.setSr (shiftLoad s.sr d)).answer .silent) := rfl

theorem exec_outWdg (d : Byte) (s : State) : exec (.outWdg d) s = .next (s.answer .silent) := rfl

theorem exec_outUnk (p : Port) (d : Byte) (s : State) : exec (.outUnk p d) s = .next (s.report .silent (.unknownOut p d)) := rfl

/-! ## The words of the model's ports -/

/-- The model's parameters meet the constraints of R6. -/
theorem params_valid : params.Valid := by decide

/-- A `port_in` word of a device's port number is the device's row (R77). -/
theorem decode_params_portIn {p : Port} {i : Instr} (hp : p ∈ params.ports) (hi : portInRow params p = i) :
    decode params (.t40 (t40 0x08 p 0)) = .ok i :=
  hi ▸ decode_portIn (params_valid.fits_of_mem hp)

/-- A `port_out` word of a device's port number is the device's row (R78). -/
theorem decode_params_portOut {p : Port} {d : Byte} {i : Instr} (hp : p ∈ params.ports) (hi : portOutRow params p d = i) :
    decode params (.t40 (t40 0x09 p (inField d))) = .ok i :=
  hi ▸ decode_portOut (params_valid.fits_of_mem hp) d

/-- Settles O27, by the row of `PORT_IN_A` and the transaction. -/
theorem inputPortAClearsTheCoinBit : Obligations.InputPortAClearsTheCoinBit :=
  ⟨decode_params_portIn (by decide) portInRow_portInA, exec_inA⟩

/-- Settles O28, by the row of `PORT_IN_B` and the transaction. -/
theorem inputPortBChangesNothing : Obligations.InputPortBChangesNothing :=
  ⟨decode_params_portIn (by decide) params_valid.portInRow_devices.1, exec_inB⟩

/-- Settles O29: the bits of the field that starts at `8 - SO`. -/
theorem shiftReadAnswersTheWindow : Obligations.ShiftReadAnswersTheWindow := by
  have hanchor : params.shiftAnchor = 8 := rfl
  refine fun s => ⟨_, exec_inShift s, fun j hj => ?_⟩
  rw [shiftWindow_eq_extractLsb', hanchor, BitVec.getLsbD_extractLsb', decide_eq_true hj, Bool.true_and]

/-- Settles O31: the byte is the draw. -/
theorem watchdogReadAnswersSomeByte : Obligations.WatchdogReadAnswersSomeByte := fun s =>
  ⟨_, exec_inWdg s⟩

/-- Settles O32: a number that no device of its direction claims takes the last row of its table. -/
theorem unrecognisedPortsAndWatchdogWrite : Obligations.UnrecognisedPortsAndWatchdogWrite := by
  refine fun s p d => ⟨fun hp hread => ?_, exec_inUnk p s, fun hp hwrite => ?_, exec_outUnk p d s,
    decode_params_portOut (by decide) (params_valid.portOutRow_devices d).2, exec_outWdg d s⟩
  · have hdevice : readDevice params p = .unrecognised := readDevice_eq_unrecognised.mpr (by simpa using hread)
    rw [decode_portIn (decide_eq_true hp), portInRow_unrecognised hdevice]
  · have hdevice : writeDevice params p = .unrecognised := writeDevice_eq_unrecognised.mpr (by simpa using hwrite)
    rw [decode_portOut (decide_eq_true hp), portOutRow_unrecognised hdevice]

/-- Settles O33: the offset kept is the byte's low 3 bits. -/
theorem offsetWriteKeepsThreeBits : Obligations.OffsetWriteKeepsThreeBits := fun s d =>
  ⟨decode_params_portOut (by decide) (portOutRow_portShiftOffset d), _, toNat_offsetOf d, exec_outOffset d s⟩

/-- Settles O34: the load as arithmetic. -/
theorem dataWriteShiftsTheHighByteDown : Obligations.DataWriteShiftsTheHighByteDown := fun s d =>
  ⟨decode_params_portOut (by decide) (params_valid.portOutRow_devices d).1, _, toNat_shiftLoad s.sr d, exec_outData d s⟩

/-! ## The shift register after a sequence of transactions -/

/-- A sequence that completes, taken apart after its first transaction. -/
theorem execAll_cons_next_cases {i : Instr} {is : List Instr} {s t : State} (h : execAll (i :: is) s = .next t) :
    ∃ u, exec i s = .next u ∧ execAll is u = .next t := by
  cases hi : exec i s with
  | next u => exact ⟨u, rfl, execAll_cons_of_next hi is ▸ h⟩
  | fault f => simp [execAll, hi] at h
  | refused r => simp [execAll, hi] at h

theorem offsetWrites_cons (i : Instr) (is : List Instr) : offsetWrites (i :: is) = offsetWrites [i] ++ offsetWrites is :=
  List.filterMap_append (l := [i])

theorem dataWrites_cons (i : Instr) (is : List Instr) : dataWrites (i :: is) = dataWrites [i] ++ dataWrites is :=
  List.filterMap_append (l := [i])

/-- `SO` after one offset write after another: each replaces the last (R117). -/
def soAfter (so : BitVec 3) (os : List Byte) : BitVec 3 := os.foldl (fun _ o => offsetOf o) so

/-- `SR` after one load after another (R118). -/
def srAfter (sr : BitVec 16) (bs : List Byte) : BitVec 16 := bs.foldl shiftLoad sr

theorem soAfter_append_singleton (so : BitVec 3) (os : List Byte) (o : Byte) : soAfter so (os ++ [o]) = offsetOf o :=
  List.foldl_concat ..

theorem toNat_srAfter_append_pair (sr : BitVec 16) (bs : List Byte) (b1 b2 : Byte) :
    (srAfter sr (bs ++ [b1, b2])).toNat = b2.toNat * 256 + b1.toNat := by
  rw [srAfter, List.foldl_append]
  exact toNat_shiftLoad_shiftLoad _ b1 b2

/-- One transaction moves the shift registers by its own port write, if it is one, and every other leaves them alone. -/
theorem exec_shiftRegisters {i : Instr} {s t : State} (h : exec i s = .next t) :
    t.so = soAfter s.so (offsetWrites [i]) ∧ t.sr = srAfter s.sr (dataWrites [i]) := by
  cases i with
  | outOffset d => cases h; exact ⟨rfl, rfl⟩
  | outData d => cases h; exact ⟨rfl, rfl⟩
  | _ =>
    have hframe := (exec_changesOnly h).items
    exact ⟨(hframe .SO (by simp [mayWrite])).symm, (hframe .SR (by simp [mayWrite])).symm⟩

/-- The shift registers after a sequence that completes are those its port writes leave, whatever else runs between. -/
theorem execAll_shiftRegisters {is : List Instr} {s t : State} (h : execAll is s = .next t) :
    t.so = soAfter s.so (offsetWrites is) ∧ t.sr = srAfter s.sr (dataWrites is) := by
  induction is generalizing s with
  | nil => cases h; exact ⟨rfl, rfl⟩
  | cons i is ih =>
    obtain ⟨u, hi, his⟩ := execAll_cons_next_cases h
    obtain ⟨hso, hsr⟩ := exec_shiftRegisters hi
    obtain ⟨hso', hsr'⟩ := ih his
    rw [offsetWrites_cons, dataWrites_cons, hso', hsr', hso, hsr]
    exact ⟨(List.foldl_append ..).symm, (List.foldl_append ..).symm⟩

/-- Settles O35, by the registers the port writes leave: the last offset, and the last two bytes loaded. -/
theorem twoLoadsThenRead : Obligations.TwoLoadsThenRead := by
  intro is s t os bs o b1 b2 h hos hbs
  obtain ⟨hso, hsr⟩ := execAll_shiftRegisters h
  rw [hos, soAfter_append_singleton] at hso
  rw [hbs] at hsr
  rw [exec_inShift, shiftWindow_eq_ofNat, hso, hsr, toNat_offsetOf, toNat_srAfter_append_pair]

end Sys2Proof.Machine
end

section
/-! PROOFS. The interrupt queue (spec/42_interrupt_queue.md): what each queue transaction does, when a push is refused, and the
balance of the vectors pushed and popped over any sequence of transactions. -/

namespace Sys2Proof.Machine

/-! ## What each queue transaction does -/

theorem exec_hasPending (s : State) : exec .hasPending s = .next (s.answer (.bit (pending s))) := rfl

theorem exec_pop_cons {s : State} {v : Byte} {vs : List Byte} (h : s.iq = v :: vs) :
    exec .pop s = .next ((s.setIq vs).answer (.byte v)) := popVector_cons h

theorem pending_eq_decide (s : State) : pending s = decide (s.iq ≠ []) := by
  rw [Bool.eq_iff_iff, pending_eq_true, decide_eq_true_iff]

/-- Settles O36, by the transaction. -/
theorem pushAppends : Obligations.PushAppends := exec_push

/-- Settles O37, by the row of `has_pending` and the transaction. -/
theorem hasPendingAnswersNonEmptiness : Obligations.HasPendingAnswersNonEmptiness := by
  refine ⟨by decide, rfl, fun s => ?_⟩
  rw [exec_hasPending, pending_eq_decide]

/-- Settles O38, by `pop` of a queue that is not empty. -/
theorem popReturnsTheOldest : Obligations.PopReturnsTheOldest := fun _ _ _ => exec_pop_cons

/-- Settles O39, by `pop` of an empty queue. -/
theorem popOfEmptyFaults : Obligations.PopOfEmptyFaults := fun _ => popVector_nil

/-- Settles O40: `push` of one vector appends it and fits the depth, or is refused and would not fit. -/
theorem finiteQueueRefusesWhenFull : Obligations.FiniteQueueRefusesWhenFull := by
  intro c s v
  rcases pushVectors_cases c s [v] with ⟨hnext, hfits⟩ | ⟨hfull, n, hn, hover⟩
  · refine ⟨fun _ => hnext, fun n hn hle => ?_, fun _ _ _ => hnext⟩
    exact absurd (hfits n hn) (Nat.not_le.mpr (Nat.lt_succ_of_le hle))
  · refine ⟨fun hnone => ?_, fun _ _ _ => hfull, fun m hm hlt => ?_⟩
    · simp [hnone] at hn
    · obtain rfl : n = m := Option.some.inj (hn.symm.trans hm)
      exact absurd hover (Nat.not_lt.mpr hlt)

/-! ## First in, first out -/

/-- The balance of one transaction: the vector it popped, if any, was the oldest, and what it pushed is at the tail (R134). -/
theorem exec_queue_balance {i : Instr} {s t : State} (h : exec i s = .next t) :
    poppedBy t i ++ t.iq = s.iq ++ pushedBy params s i := by
  cases i with
  | push v => cases h; rfl
  | pop =>
    obtain ⟨v, vs, hiq, rfl⟩ := popVector_next_cases h
    exact hiq.symm.trans (List.append_nil _).symm
  | tick n =>
    obtain ⟨-, rfl⟩ := observe_next_cases h
    rfl
  | _ =>
    have hiq : s.iq = t.iq := (exec_changesOnly h).items .IQ (by simp [mayWrite])
    exact hiq.symm.trans (List.append_nil _).symm

theorem execTrace_cons_of_next {i : Instr} {s t : State} (h : exec i s = .next t) (is : List Instr) :
    execTrace (i :: is) s =
      (execTrace is t).map fun r => ⟨r.state, poppedBy t i ++ r.popped, pushedBy params s i ++ r.pushed⟩ := by
  rw [execTrace, h]

/-- The trace of a sequence that completes, taken apart after its first transaction. -/
theorem execTrace_cons_cases {i : Instr} {is : List Instr} {s : State} {r : Trace} (h : execTrace (i :: is) s = some r) :
    ∃ t r', exec i s = .next t ∧ execTrace is t = some r' ∧
      r = ⟨r'.state, poppedBy t i ++ r'.popped, pushedBy params s i ++ r'.pushed⟩ := by
  cases hi : exec i s with
  | next t =>
    rw [execTrace_cons_of_next hi, Option.map_eq_some_iff] at h
    obtain ⟨r', hr', rfl⟩ := h
    exact ⟨t, r', rfl, hr', rfl⟩
  | fault _ | refused _ => simp [execTrace, hi] at h

/-- The balance over a sequence that completes: no vector is lost, repeated or reordered (R134). -/
theorem execTrace_queue_balance {is : List Instr} {s : State} {r : Trace} (h : execTrace is s = some r) :
    r.popped ++ r.state.iq = s.iq ++ r.pushed := by
  induction is generalizing s r with
  | nil => cases h; exact (List.append_nil _).symm
  | cons i is ih =>
    obtain ⟨t, r', hi, his, rfl⟩ := execTrace_cons_cases h
    calc (poppedBy t i ++ r'.popped) ++ r'.state.iq
        = poppedBy t i ++ (t.iq ++ r'.pushed) := by rw [List.append_assoc, ih his]
      _ = (s.iq ++ pushedBy params s i) ++ r'.pushed := by rw [← List.append_assoc, exec_queue_balance hi]
      _ = s.iq ++ (pushedBy params s i ++ r'.pushed) := List.append_assoc ..

/-- As many pops as the queue is long answer it in order and leave it empty (R134). -/
theorem execTrace_pops (s : State) : ∃ r, execTrace (List.replicate s.iq.length .pop) s = some r ∧
    r.popped = s.iq ∧ r.state.iq = [] := by
  induction hiq : s.iq generalizing s with
  | nil => exact ⟨_, rfl, rfl, hiq⟩
  | cons v vs ih =>
    obtain ⟨r, hr, hpopped, hempty⟩ := ih ((s.setIq vs).answer (.byte v)) rfl
    refine ⟨_, (execTrace_cons_of_next (exec_pop_cons hiq) _).trans (congrArg _ hr), ?_, hempty⟩
    exact congrArg (v :: ·) hpopped

/-- Pushes and then as many pops as the queue is long by then: the vectors held come first, those pushed after them (R134). -/
theorem execTrace_pushes_pops (vs : List Byte) (s : State) :
    ∃ r, execTrace (vs.map .push ++ List.replicate (s.iq ++ vs).length .pop) s = some r ∧
      r.popped = s.iq ++ vs ∧ r.state.iq = [] := by
  induction vs generalizing s with
  | nil =>
    rw [List.append_nil]
    exact execTrace_pops s
  | cons v vs ih =>
    obtain ⟨r, hr, hpopped, hempty⟩ := ih ((s.setIq (s.iq ++ [v])).answer .silent)
    rw [State.answer_iq, State.setIq_iq, ← List.append_cons] at hr hpopped
    exact ⟨_, (execTrace_cons_of_next (exec_push s v) _).trans (congrArg _ hr), hpopped, hempty⟩

/-- Settles O41, by the balance over the sequence, and by the pushes and pops from an empty queue. -/
theorem queueIsFirstInFirstOut : Obligations.QueueIsFirstInFirstOut := by
  refine ⟨fun is s r => execTrace_queue_balance, fun vs s hempty => ?_⟩
  have hpops := execTrace_pushes_pops vs s
  rwa [hempty, List.nil_append] at hpops

end Sys2Proof.Machine
end

section
/-! PROOFS. The input latch (spec/43_input_latch.md): what each latch transaction and named input does, the bits of a byte with one bit
set or cleared, and the coin strobe. -/

namespace Sys2Proof.Machine

/-! ## What each latch transaction does -/

theorem exec_latchSet (f : LatchField) (i : BitVec 3) (s : State) :
    exec (.latchSet f i) s = .next ((s.setLatch f (s.latch f ||| bitMask i)).answer .silent) := rfl

theorem exec_latchClear (f : LatchField) (i : BitVec 3) (s : State) :
    exec (.latchClear f i) s = .next ((s.setLatch f (s.latch f &&& ~~~bitMask i)).answer .silent) := rfl

/-- Pressing a name is setting the bit `INPUT_MAP` gives it (R143). -/
theorem exec_press (n : InputName) (s : State) :
    exec (.press n) s = exec (.latchSet (params.inputMap.get n).field (params.inputMap.get n).bit) s := rfl

/-- Releasing a name is clearing the bit `INPUT_MAP` gives it (R143). -/
theorem exec_release (n : InputName) (s : State) :
    exec (.release n) s = exec (.latchClear (params.inputMap.get n).field (params.inputMap.get n).bit) s := rfl

/-- Settles O45: a named input is its latch transaction, which always answers. -/
theorem namedInputsFollowInputMap : Obligations.NamedInputsFollowInputMap := fun s n =>
  ⟨⟨_, exec_press n s, exec_latchSet _ _ s⟩, ⟨_, exec_release n s, exec_latchClear _ _ s⟩⟩

/-! ## One bit of a field -/

theorem getLsbD_bitMask (i : BitVec 3) (j : Nat) : (bitMask i).getLsbD j = decide (j = i.toNat) := by
  have hi : i.toNat < 8 := i.isLt
  rw [bitMask, ← BitVec.twoPow_eq, BitVec.getLsbD_twoPow, decide_eq_true hi, Bool.true_and, decide_eq_decide]
  exact eq_comm

theorem getLsbD_or_bitMask (v : Byte) (i : BitVec 3) (j : Nat) :
    (v ||| bitMask i).getLsbD j = if j = i.toNat then true else v.getLsbD j := by
  rw [BitVec.getLsbD_or, getLsbD_bitMask]
  split_ifs with h <;> simp [h]

theorem getLsbD_and_not_bitMask (v : Byte) (i : BitVec 3) {j : Nat} (hj : j < 8) :
    (v &&& ~~~bitMask i).getLsbD j = if j = i.toNat then false else v.getLsbD j := by
  rw [BitVec.getLsbD_and, BitVec.getLsbD_not, getLsbD_bitMask]
  split_ifs with h <;> simp [h, hj]

/-! The `sel` field as a number (R73): `sel[3:3]` is the latch field and `sel[2:0]` the index. -/

theorem latchSel_A (i : BitVec 3) : latchSel .A i = BitVec.ofNat 16 (0 + i.toNat) := by decide +revert

theorem latchSel_B (i : BitVec 3) : latchSel .B i = BitVec.ofNat 16 (8 + i.toNat) := by decide +revert

/-- Settles O44: a latch transaction is the one its word encodes, and its byte differs from the field in the bit of its mask. -/
theorem latchTransactionsChangeOneBit : Obligations.LatchTransactionsChangeOneBit := by
  intro s f i on instr sel
  have hsel : sel = latchSel f i := by
    cases f with
    | A => exact (latchSel_A i).symm
    | B => exact (latchSel_B i).symm
  rw [hsel]
  cases on with
  | true =>
    refine ⟨decode_of_encodeOne params_valid (i := .latchSet f i) rfl rfl, rfl, s.latch f ||| bitMask i, ?_, fun j hj => ?_⟩
    · cases f <;> exact exec_latchSet _ i s
    · cases f <;> exact getLsbD_or_bitMask _ i j
  | false =>
    refine ⟨decode_of_encodeOne params_valid (i := .latchClear f i) rfl rfl, rfl, s.latch f &&& ~~~bitMask i, ?_, fun j hj => ?_⟩
    · cases f <;> exact exec_latchClear _ i s
    · cases f <;> exact getLsbD_and_not_bitMask _ i hj

/-! ## The coin strobe -/

/-- The coin's bit is the one `COIN_MASK` selects in field A (R6). -/
theorem exec_press_coin (s : State) :
    exec (.press .coin) s = .next ((s.setLatch .A (s.la ||| params.coinMask)).answer .silent) := rfl

theorem exec_release_coin (s : State) :
    exec (.release .coin) s = .next ((s.setLatch .A (s.la &&& ~~~params.coinMask)).answer .silent) := rfl

theorem or_or_and_mask (x v m : Byte) : (x ||| (v ||| m)) &&& m = m := by
  ext j
  simpa using fun hm => .inr (.inr hm)

/-- A masked bit that has been cleared in `v` is read as `x` alone gives it. -/
theorem or_clear_and_mask (x v m : Byte) : (x ||| (v &&& ~~~m)) &&& m = x &&& m := by
  rw [BitVec.and_or_distrib_right, BitVec.and_assoc, BitVec.not_and_self, BitVec.ofNat_eq_ofNat, BitVec.and_zero, BitVec.or_zero]

/-- Clearing the masked bits of `v` leaves the others as they are read. -/
theorem or_clear_and_not_mask (x v m : Byte) : (x ||| (v &&& ~~~m)) &&& ~~~m = (x ||| v) &&& ~~~m := by
  rw [BitVec.and_or_distrib_right, BitVec.and_assoc, BitVec.and_self, ← BitVec.and_or_distrib_right]

/-- A coin pressed twice is as pressed once (R144). -/
theorem exec_press_coin_again {s t : State} (h : exec (.press .coin) s = .next t) : exec (.press .coin) t = .next t := by
  rw [exec_press_coin] at h
  cases h
  rw [exec_press_coin, State.answer_la, State.setLatch_A_la, BitVec.or_assoc, BitVec.or_self]
  rfl

/-- Settles O46: the press sets the coin bit of field A, and both the read that sees it and a release clear that bit alone. -/
theorem coinIsSeenByExactlyOneRead : Obligations.CoinIsSeenByExactlyOneRead := by
  intro s
  refine ⟨_, _, _, _, _, exec_press_coin s, exec_inA _, exec_inA _, rfl, rfl, ?seen, ?cleared, ?others,
    exec_press_coin_again (exec_press_coin s), _, _, exec_release_coin _, exec_inA _, rfl⟩
  case seen => exact or_or_and_mask _ _ _
  case cleared => exact or_clear_and_mask _ _ _
  case others => exact (or_clear_and_not_mask _ _ _).symm

end Sys2Proof.Machine
end

section
/-! PROOFS. Exceptions and the interrupt source (spec/60_exceptions.md): what a `tick` does, what can stop, the engine's poll, and the
cadence of the vectors over any sequence of observations. -/

namespace Sys2Proof.Machine

/-! ## What a `tick` does -/

/-- The state after an observation of the count `n` (R156). -/
def State.observed (s : State) (n : Count) : State :=
  ((s.setCycPrev n).setIq (s.iq ++ vectorsBetween params (halfFrame params s.cycPrev) (halfFrame params n))).answer .silent

@[simp] theorem State.observed_iq (s : State) (n : Count) :
    (s.observed n).iq = s.iq ++ vectorsBetween params (halfFrame params s.cycPrev) (halfFrame params n) := rfl

@[simp] theorem State.observed_cycPrev (s : State) (n : Count) : (s.observed n).cycPrev = n := rfl

theorem exec_tick {s : State} {n : Count} (h : s.cycPrev.toNat ≤ n.toNat) : exec (.tick n) s = .next (s.observed n) :=
  observe_params h

theorem exec_tick_decreased {s : State} {n : Count} (h : n.toNat < s.cycPrev.toNat) :
    exec (.tick n) s = .refused .countDecreased := observe_decreased params h

/-- Settles O42, by the two outcomes of an observation. -/
theorem tickPushesOneVectorPerBoundary : Obligations.TickPushesOneVectorPerBoundary := fun _ _ =>
  ⟨exec_tick, exec_tick_decreased⟩

/-! ## What can stop -/

/-- Every instruction answers, but for `pop` of an empty queue and a `tick` whose count falls (R150, R153, R156). -/
theorem exec_outcome_cases (i : Instr) (s : State) : (∃ u, exec i s = .next u) ∨
    (i = .pop ∧ s.iq = [] ∧ exec i s = .fault .popEmpty) ∨
    ∃ n, i = .tick n ∧ n.toNat < s.cycPrev.toNat ∧ exec i s = .refused .countDecreased := by
  by_cases hpop : i = .pop
  · subst hpop
    cases hiq : s.iq with
    | nil => exact .inr (.inl ⟨rfl, rfl, popVector_nil hiq⟩)
    | cons v vs => exact .inl ⟨_, exec_pop_cons hiq⟩
  by_cases htick : ∃ n, i = .tick n
  · obtain ⟨n, rfl⟩ := htick
    rcases Nat.lt_or_ge n.toNat s.cycPrev.toNat with hlt | hle
    · exact .inr (.inr ⟨n, rfl, hlt, exec_tick_decreased hlt⟩)
    · exact .inl ⟨_, exec_tick hle⟩
  · exact .inl (exec_answers hpop (fun n hn => htick ⟨n, hn⟩) s)

/-- Settles O55, by the three outcomes of an instruction. -/
theorem onlyPopAndTickCanStop : Obligations.OnlyPopAndTickCanStop := by
  intro s i
  obtain ⟨u, h⟩ | ⟨hi, hiq, h⟩ | ⟨n, hi, hlt, h⟩ := exec_outcome_cases i s
  · rw [h]
    exact ⟨nofun, nofun⟩
  · rw [h]
    exact ⟨fun f hf => ⟨(Host.Outcome.fault.inj hf).symm, hi, hiq⟩, nofun⟩
  · rw [h]
    exact ⟨nofun, fun r hr => ⟨(Host.Outcome.refused.inj hr).symm, n, hi, hlt⟩⟩

/-! ## The engine's poll -/

/-- A poll is answered as `has_pending`, and the engine's decision follows (R160). -/
theorem step_poll {s : State} {t : Taken} {enabled : Bool} {service : List Instr} (hn : nextRequest s.holds = some t)
    (ht : t.request = .poll enabled service) :
    step s = .next (followPoll t enabled service ((s.take t).answer (.bit (pending s)))) := by
  have hi : instrOf t.request = .ok .hasPending := by rw [ht]; rfl
  have hgate : loadGate s .hasPending = none := rfl
  rw [step_of_nextRequest hn hi hgate, exec_hasPending]
  simp only [settle, ht]
  rfl

/-- The `pop` a poll leads to, and the service of the vector after it (R160). -/
theorem followPoll_of_pops {t : Taken} {s : State} (hstage : mayPop t.stage = true) (hbit : s.response = .bit true)
    (service : List Instr) : followPoll t true service s =
      { s with holds := ⟨t.agent, .named .pop :: (service.map .named ++ t.more), .popDue⟩ :: t.rest } := by
  rw [followPoll, hstage, hbit]
  rfl

/-- A poll that leads to no `pop` (R161, D13). -/
theorem followPoll_of_quiet {t : Taken} {enabled : Bool} {s : State}
    (h : mayPop t.stage = false ∨ enabled = false ∨ s.response = .bit false) (service : List Instr) :
    followPoll t enabled service s = s := by
  rcases h with hstage | henabled | hbit
  · exact followPoll_of_served hstage enabled service s
  · simp [followPoll, henabled]
  · simp [followPoll, hbit]

/-- What is left of the block and its outputs after the engine's decision. -/
theorem followPoll_outputs (t : Taken) (enabled : Bool) (service : List Instr) (s : State) :
    (followPoll t enabled service s).response = s.response ∧ (followPoll t enabled service s).diag = s.diag := by
  rcases followPoll_cases t enabled service s with h | ⟨-, -, h⟩
  · rw [h]; exact ⟨rfl, rfl⟩
  · rw [h]; exact ⟨rfl, rfl⟩

/-- The step on a `pop` by name. -/
theorem step_pop {s : State} {x : Taken} {v : Byte} {vs : List Byte} (hn : nextRequest s.holds = some x)
    (hx : x.request = .named .pop) (hiq : s.iq = v :: vs) : step s = .next (((s.take x).setIq vs).answer (.byte v)) := by
  have hi : instrOf x.request = .ok .pop := by rw [hx]; rfl
  rw [step_eq_exec hn hi nofun (not_poll_of_instrOf hi nofun), exec_pop_cons (s := s.take x) hiq]

/-- The service of a vector in the order of requests: in front of what was left of the hold. -/
theorem flat_service (a : Option Agent) (stage stage' : Stage) (service : List Instr) (more : List Request) (hs : List Hold) :
    flat (resume a stage (service.map .named ++ more) hs) =
      service.map (fun i => (a, Request.named i)) ++ flat (resume a stage' more hs) := by
  simp [Function.comp_def]

/-- Settles O11: the two outcomes of the engine's decision, and the `pop` that follows the first. -/
theorem pollIssuesOnePopWhenPendingAndEnabled : Obligations.PollIssuesOnePopWhenPendingAndEnabled := by
  intro s t enabled service hn ht
  have hpending := pending_eq_decide s
  have htail : (flat s.holds).tail = flat (s.take t).holds := by rw [flat_take hn, List.tail_cons]
  obtain ⟨hresponse, hdiag⟩ := followPoll_outputs t enabled service ((s.take t).answer (.bit (pending s)))
  refine ⟨_, step_poll hn ht, followPoll_toBlock .., by rw [hresponse, hpending]; rfl, hdiag, ?pops, ?quiet⟩
  case pops =>
    intro henabled hiq hstage after
    have hmay : mayPop t.stage = true := by rcases hstage with h | h <;> rw [h] <;> rfl
    have hbit : ((s.take t).answer (.bit (pending s))).response = .bit true := congrArg _ (pending_eq_true.mpr hiq)
    have hafter (stage : Stage) : flat (resume t.agent stage (service.map .named ++ t.more) t.rest) = after := by
      rw [flat_service t.agent stage (nextStage t.stage)]
      exact congrArg _ htail.symm
    rw [henabled, followPoll_of_pops hmay hbit]
    obtain ⟨v, vs, hvs⟩ := List.exists_cons_of_ne_nil hiq
    refine ⟨?_, v, vs, _, hvs, step_pop rfl rfl hvs, rfl, rfl, hafter .served⟩
    rw [← hafter .popDue, flat_resume, flat_cons]
    rfl
  case quiet =>
    intro h
    rw [htail, followPoll_of_quiet]
    · rfl
    · rcases h with h | h | h | h
      · exact .inr (.inl h)
      · exact .inr (.inr (congrArg Response.bit (by rw [hpending, h]; rfl)))
      · exact .inl (by rw [h]; rfl)
      · exact .inl (by rw [h]; rfl)

/-! ## The cadence law -/

/-- Observing again the count last observed leaves the block as it is. -/
theorem observed_cycPrev_toBlock (s : State) : (s.observed s.cycPrev).toBlock = s.toBlock := by
  rw [State.observed, vectorsBetween_self, List.append_nil]
  rfl

/-- An observation between two counts is not seen after the second (R158). -/
theorem observed_observed {s : State} {m n : Count} (hm : s.cycPrev.toNat ≤ m.toNat) (hn : m.toNat ≤ n.toNat) :
    (s.observed m).observed n = s.observed n := by
  rw [State.observed, State.observed_iq, State.observed_cycPrev, List.append_assoc,
    vectorsBetween_append params (halfFrame_mono params hm) (halfFrame_mono params hn)]
  rfl

/-- The last of a non-decreasing sequence of counts is not below the first. -/
theorem le_last_of_nonDecreasing {n last : Count} {ns : List Count} (h : ((n :: ns).map BitVec.toNat).Pairwise (· ≤ ·))
    (hlast : (n :: ns).getLast? = some last) : n.toNat ≤ last.toNat := by
  rcases List.mem_cons.mp (List.mem_of_getLast? hlast) with rfl | hmem
  · exact Nat.le_refl _
  · exact (List.pairwise_cons.mp h).1 _ (List.mem_map_of_mem hmem)

/-- However the interval is cut into observations, the block is left as one observation of the last count leaves it. -/
theorem execAll_ticks {s : State} {ns : List Count} {last : Count}
    (h : ((s.cycPrev :: ns).map BitVec.toNat).Pairwise (· ≤ ·)) (hlast : (s.cycPrev :: ns).getLast? = some last) :
    ∃ t, execAll (ns.map .tick) s = .next t ∧ t.toBlock = (s.observed last).toBlock := by
  induction ns generalizing s with
  | nil =>
    cases hlast
    exact ⟨s, rfl, (observed_cycPrev_toBlock s).symm⟩
  | cons n ns ih =>
    obtain ⟨hfirst, hrest⟩ := List.pairwise_cons.mp h
    have hle : s.cycPrev.toNat ≤ n.toNat := hfirst _ (List.mem_cons_self ..)
    rw [List.getLast?_cons_cons] at hlast
    obtain ⟨t, ht, hblock⟩ := ih (s := s.observed n) hrest hlast
    refine ⟨t, (execAll_cons_of_next (exec_tick hle) _).trans ht, ?_⟩
    rw [hblock, observed_observed hle (le_last_of_nonDecreasing hrest hlast)]

theorem getElem?_vectorsBetween (c : Params) {h0 h1 k : Nat} (hk : k < h1 - h0) :
    (vectorsBetween c h0 h1)[k]? = some (vectorFor c (h0 + 1 + k)) := by
  rw [vectorsBetween, List.getElem?_map, List.getElem?_range' hk, Nat.one_mul]
  rfl

/-- The vector of a half-frame, by its odd indexes. -/
theorem vectorFor_eq_of_odd (c : Params) (h : Nat) : vectorFor c h = if h % 2 = 1 then c.vecMid else c.vecTop := by
  unfold vectorFor
  rcases Nat.mod_two_eq_zero_or_one h with he | ho
  · rw [if_pos he, if_neg (by omega)]
  · rw [if_neg (by omega), if_pos ho]

/-- The `k`-th vector of an interval that begins at count 0 is that of half-frame `k` (R158). -/
theorem getElem?_vectorsBetween_zero (c : Params) {h1 k : Nat} (hk : 1 ≤ k) (hk' : k ≤ h1) :
    (vectorsBetween c 0 h1)[k - 1]? = some (if k % 2 = 1 then c.vecMid else c.vecTop) := by
  rw [getElem?_vectorsBetween c (by omega), show 0 + 1 + (k - 1) = k by omega, vectorFor_eq_of_odd]

/-- Settles O43: the sequence of observations is one observation of the last count, and its vectors are those of consecutive
half-frames. -/
theorem cadenceLaw : Obligations.CadenceLaw := by
  intro s ns last h hlast
  obtain ⟨t, ht, hblock⟩ := execAll_ticks h hlast
  have hlen := length_vectorsBetween params (halfFrame params s.cycPrev) (halfFrame params last)
  obtain ⟨-, -, -, hvec, -⟩ := params_valid
  refine ⟨t, s.observed last, _, ht, congrArg Block.iq hblock, congrArg Block.cycPrev hblock, hlen,
    fun v hv => mem_vectorsBetween hv, isChain_vectorsBetween hvec _ _, fun hzero k hk hk' => ?_,
    exec_tick (le_last_of_nonDecreasing h hlast), hblock.symm⟩
  have hstart : halfFrame params s.cycPrev = 0 := by rw [hzero]; rfl
  rw [hstart] at hlen hk' ⊢
  exact getElem?_vectorsBetween_zero params hk (by omega)

end Sys2Proof.Machine
end

section
/-! PROOFS. Reset and hazards (spec/70_reset_and_hazards.md): a load after the start, and the program the four blocks of a ROM load
leave. -/

namespace Sys2Proof.Machine

/-! ## A load after the start -/

theorem loadGate_of_started {s : State} {i : Instr} (hload : isLoad i = true) (hstarted : s.started = true) :
    loadGate s i = some .loadAfterStart := by
  rw [loadGate, hload, hstarted]
  rfl

/-- The step on a transaction the gate turns away. -/
theorem step_of_loadGate_some {s : State} {x : Taken} {i : Instr} {r : Refusal} (hn : nextRequest s.holds = some x)
    (hi : instrOf x.request = .ok i) (hgate : loadGate s i = some r) : step s = .refused r := by
  simp only [step, hn, hi, hgate]

/-- Settles O10, by the gate of the load path. -/
theorem loadAfterStartIsRefused : Obligations.LoadAfterStartIsRefused := fun _ _ _ hn hi hload hstarted =>
  step_of_loadGate_some hn hi (loadGate_of_started hload hstarted)

/-! ## An image in the program view -/

theorem inc16_add_ofNat (a : Addr) (n : Nat) : inc16 a + BitVec.ofNat 16 n = a + BitVec.ofNat 16 (n + 1) := by
  rw [inc16, Nat.add_comm n 1, BitVec.ofNat_add, ← BitVec.add_assoc]
  rfl

/-- Two images, the second where the cursor of the first ends, are loaded as one. -/
theorem loadBytes_append (s : State) (base : Addr) (vs ws : List Byte) :
    loadBytes s base (vs ++ ws) = loadBytes (loadBytes s base vs) (base + BitVec.ofNat 16 vs.length) ws := by
  induction vs generalizing s base with
  | nil => exact congrArg (loadBytes s · ws) (BitVec.add_zero base).symm
  | cons v vs ih => rw [List.cons_append, loadBytes, ih, loadBytes, inc16_add_ofNat, List.length_cons]

/-- The cursor of an image that ends before the address space does runs without a wrap. -/
theorem toNat_of_mem_cursorAddrs {a base : Addr} {vs : List Byte} (h : base.toNat + vs.length ≤ 0x10000)
    (ha : a ∈ storedAddrs.cursorAddrs base vs) : base.toNat ≤ a.toNat ∧ a.toNat < base.toNat + vs.length := by
  obtain ⟨i, hi, rfl⟩ := mem_cursorAddrs.mp ha
  rw [BitVec.toNat_add, BitVec.toNat_ofNat]
  omega

/-- A store the cursor does not visit is left as it is. -/
theorem loadBytes_store_other {st : Store} {s : State} {base : Addr} {vs : List Byte}
    (h : ∀ a ∈ storedAddrs.cursorAddrs base vs, (region a).1 ≠ st) : (loadBytes s base vs).store st = s.store st := by
  induction vs generalizing s base with
  | nil => rfl
  | cons v vs ih =>
    obtain ⟨hbase, hrest⟩ := List.forall_mem_cons.mp h
    rw [loadBytes, ih hrest, memLoad, State.setStore_store_other s hbase.symm]

/-- An image that lies in the program view leaves the other two stores as they are. -/
theorem loadBytes_store_of_program {st : Store} (hst : st ≠ .PROG) (s : State) {base : Addr} {vs : List Byte}
    (h : base.toNat + vs.length ≤ 0x2000) : (loadBytes s base vs).store st = s.store st := by
  refine loadBytes_store_other fun a ha hr => hst ?_
  obtain ⟨-, hlt⟩ := toNat_of_mem_cursorAddrs (by omega) ha
  rw [← hr, region_fst_eq_PROG]
  omega

/-- Byte `i` of an image that lies in the program view is read back at `base + i`: no later byte of the image has its place. -/
theorem memRead_loadBytes_program {s : State} (hs : StoresOk s) {base : Addr} {vs : List Byte} {i : Nat} (hi : i < vs.length)
    (h : base.toNat + vs.length ≤ 0x2000) : memRead (loadBytes s base vs) (base + BitVec.ofNat 16 i) = vs[i] := by
  induction vs generalizing s base i with
  | nil => cases hi
  | cons v vs ih =>
    rw [List.length_cons] at h hi
    have hinc : (inc16 base).toNat = base.toNat + 1 := by rw [toNat_inc16]; omega
    rw [loadBytes]
    cases i with
    | zero =>
      have hlater : ∀ a ∈ storedAddrs.cursorAddrs (inc16 base) vs, region a ≠ region base := fun a ha hr => by
        obtain ⟨hge, -⟩ := toNat_of_mem_cursorAddrs (by omega) ha
        rw [region_program (a := base) (by omega), region_eq_program_iff (by omega)] at hr
        omega
      rw [BitVec.add_zero, memRead_loadBytes_other _ _ (hs.memLoad base v) hlater, memRead_memLoad hs, if_pos rfl]
      rfl
    | succ i =>
      rw [← inc16_add_ofNat, ih (hs.memLoad base v) (by omega) (by omega)]
      rfl

/-! ## The four blocks of a ROM load -/

theorem exec_loadRom (b0 b1 b2 b3 : List Byte) (s : State) :
    exec (.loadRom b0 b1 b2 b3) s = .next ((loadBlocks s b0 b1 b2 b3).answer .silent) := rfl

/-- The image the four blocks make, one after the other. -/
def romImage (b : Fin 4 → List Byte) : List Byte := b 0 ++ b 1 ++ b 2 ++ b 3

section Blocks

variable {b : Fin 4 → List Byte} (hb : ∀ j, (b j).length = 2048)
include hb

theorem length_romImage : (romImage b).length = 0x2000 := by
  simp [romImage, hb]

theorem getElem_romImage (j : Fin 4) {i : Nat} (hi : i < (b j).length) (h : 0x800 * j.val + i < (romImage b).length) :
    (romImage b)[0x800 * j.val + i] = (b j)[i] := by
  have hi' : i < 2048 := hb j ▸ hi
  simp only [romImage, List.getElem_append, List.length_append, hb]
  match j with
  | 0 => rw [dif_pos (by omega), dif_pos (by omega), dif_pos (by omega)]; simp
  | 1 => rw [dif_pos (by omega), dif_pos (by omega), dif_neg (by omega)]; simp
  | 2 => rw [dif_pos (by omega), dif_neg (by omega)]; simp
  | 3 => rw [dif_neg (by omega)]; simp

/-- Blocks of 2048 bytes fill the program view without a gap, so loading them is loading one image at 0x0000 (R183). -/
theorem loadBlocks_eq_loadBytes (s : State) : loadBlocks s (b 0) (b 1) (b 2) (b 3) = loadBytes s 0x0000 (romImage b) := by
  rw [romImage, loadBytes_append, loadBytes_append, loadBytes_append]
  simp [loadBlocks, hb]

end Blocks

/-- Settles O25: the blocks are one image, which lies in the program view. -/
theorem loadRomPlacesTheBlocks : Obligations.LoadRomPlacesTheBlocks := by
  intro s b hs hb
  have hlen := length_romImage hb
  have hfits : (0x0000 : Addr).toNat + (romImage b).length ≤ 0x2000 := by rw [hlen]; decide
  refine ⟨_, exec_loadRom (b 0) (b 1) (b 2) (b 3) s, ?_, ?_, fun j i hi => ?_⟩ <;> rw [loadBlocks_eq_loadBytes hb]
  · exact loadBytes_store_of_program (st := .WRAM) nofun s hfits
  · exact loadBytes_store_of_program (st := .VRAM) nofun s hfits
  · have hindex : 0x800 * j.val + i < (romImage b).length := by
      have hblock := hb j
      omega
    rw [exec_readByte, memRead_answer, ← zero_add (BitVec.ofNat 16 _), memRead_loadBytes_program hs hindex hfits,
      getElem_romImage hb j hi]

end Sys2Proof.Machine
end
